-- ==== Sys2Proof/Word.lean ====
section
/-!
DEFINITION. The word types of the CORE (spec/00_scope.md rules R6, R7): bytes and character codes are 8 bits, symbol
values (code points and windows) 5 bits, the command word of the tables 10 bits. All values are unsigned.
-/
namespace Sys2Proof

/-- A payload byte or a character code (`BYTE_W` = `CHAR_W` = 8, R6). -/
abbrev Byte := BitVec 8

/-- A symbol value: a code point on the way in, a window on the way out (`SYM_W` = 5, R6, R91). -/
abbrev Sym := BitVec 5

/-- A command word `cmd[9:8], data[7:0]` (R101). -/
abbrev CmdWord := BitVec 10

end Sys2Proof
end

