-- ==== Sys2Proof/Config.lean ====
section
/-!
DEFINITION. What is fixed for the machine (spec/00_scope.md rules R5, R6) and the values the spec leaves open, each an
opaque constant without a body. No command and no port changes any of them.
-/
namespace Sys2Proof

/-- `ALPHABET_SIZE`: number of symbols (R6). -/
abbrev Config.alphabetSize : Nat := 29

/-- `MAX_LEN`: largest raw input length Encode accepts (R6). -/
abbrev Config.maxLen : Nat := 27

/-- `LEN_BYTES`: size of the length field (R6). -/
abbrev Config.lenBytes : Nat := 1

/-- `MAX_DATA_BYTES` = ceil(5 * 27 / 8) (R6). -/
abbrev Config.maxDataBytes : Nat := 17

/-- `MAX_PAYLOAD` = 1 + 17 (R6): also the number of locations of `enc_buf` (R30, R60). -/
abbrev Config.maxPayload : Nat := 18

/-- FREE VALUE (DESIGN CHOICE, notes/assumptions/4.md; safe). What `MemRead` gives at an address of `enc_buf` that
nothing has written: the spec says "any value, unobservable" (R30, 93_implementation_defined.md U2). -/
opaque Config.staleByte : Nat → Byte

/-- FREE VALUE (notes/assumptions/8.md; safe). `STEP_CYCLES` less one (R6, R306: any positive integer). -/
opaque Config.stepCyclesLessOne : Nat

/-- `STEP_CYCLES`: clock cycles an implementation spends per step. OPEN; no rule and no definition of the model reads
it (R6, R306). -/
def Config.stepCycles : Nat := Config.stepCyclesLessOne + 1

end Sys2Proof
end

