-- ==== Sys2Proof/Machine/State.lean ====
section
/-!
DEFINITION. The state of the CORE as plain data (spec/10_state.md rules R22 to R37), the reasons a step can stop, the
named record updates, and the state after reset (R47).
-/
namespace Sys2Proof.Machine

/-- R24: COLLECT 0b00, DONE 0b01, FAULT 0b10; 0b11 is unrepresentable (DEDUCED, safe, notes/assumptions/9.md). -/
inductive EncPhase where
  /-- A transaction is open and characters are accepted. -/
  | collect
  /-- The payload is complete and readable. -/
  | done
  /-- The transaction failed with `InputTooLong`. -/
  | fault
deriving DecidableEq, Repr

/-- R24: LEN 0b00, DATA 0b01, DONE 0b10; 0b11 is unrepresentable (DEDUCED, safe, notes/assumptions/9.md). -/
inductive DecPhase where
  /-- A transaction is open and the next byte is the length byte. -/
  | len
  /-- The length byte has been taken; further bytes are data bytes. -/
  | data
  /-- The transaction is closed. -/
  | done
deriving DecidableEq, Repr

/-- Byte memory: the written locations as (address, byte) cells, addresses strictly rising. An unlisted location holds
no value (R30, 93_implementation_defined.md U2; DESIGN CHOICE, safe, notes/assumptions/4.md). -/
abbrev Memory := List Host.Cell

/-- The registers of the ENC channel (R23) and its payload buffer. -/
structure EncState where
  /-- `enc_phase` (R24). -/
  phase : EncPhase
  /-- `enc_raw`: characters given to the transaction, valid or not (R25). -/
  raw : BitVec 5
  /-- `enc_n`: valid characters packed (R26). -/
  n : BitVec 5
  /-- `enc_acc`: pending stream bits, oldest most significant (R27). -/
  acc : BitVec 7
  /-- `enc_nbits`: how many bits are pending (R27). -/
  nbits : BitVec 3
  /-- `enc_wr`: address of the next data byte (R28). -/
  wr : BitVec 5
  /-- `enc_len`: length in bytes of the finished payload, 0 while there is none (R29). -/
  len : BitVec 5
  /-- `enc_buf[0..17]` (R30, 20_memory.md R60). -/
  buf : Memory
deriving DecidableEq, Repr

/-- The registers of the DEC channel (R23). -/
structure DecState where
  /-- `dec_phase` (R24). -/
  phase : DecPhase
  /-- `dec_n`: the length byte taken (R33). -/
  n : BitVec 8
  /-- `dec_i`: windows read so far, skipped ones included (R33). -/
  i : BitVec 8
  /-- `dec_acc`: stream bits no window has consumed, oldest most significant (R34). -/
  acc : BitVec 4
  /-- `dec_nbits`: how many there are (R34). -/
  nbits : BitVec 3
  /-- `dec_v0`: lane 0 holds a character (R35). -/
  v0 : Bool
  /-- `dec_c0`: lane 0 character code (R35). -/
  c0 : Byte
  /-- `dec_v1`: lane 1 holds a character (R35). -/
  v1 : Bool
  /-- `dec_c1`: lane 1 character code (R35). -/
  c1 : Byte
deriving DecidableEq, Repr

/-- The input ports (R22). `clk` is the step itself (R21). -/
structure InPorts where
  /-- `rst`: synchronous reset, active high (R290). -/
  rst : Bool
  /-- `enc_cmd` (R100). -/
  encCmd : BitVec 2
  /-- `enc_char`, read only by `ENC.CHAR` (R92). -/
  encChar : Byte
  /-- `enc_rd_addr` (R62). -/
  encRdAddr : BitVec 5
  /-- `dec_cmd` (R100). -/
  decCmd : BitVec 2
  /-- `dec_byte`, read only by `DEC.BYTE` (R96). -/
  decByte : Byte
deriving DecidableEq, Repr

/-- The input ports with nothing driven: `NOP` on both channels, no reset (92_eei_decisions.md D5: "`0b00` = NOP makes
an undriven (zero) port harmless"). DESIGN CHOICE, unsafe (notes/assumptions/3.md). -/
def InPorts.idle : InPorts :=
  { rst := false, encCmd := 0#2, encChar := 0#8, encRdAddr := 0#5, decCmd := 0#2, decByte := 0#8 }

/-- The machine: the two channels, which share nothing (R20), and the host's side of the ports. -/
structure State where
  /-- The ENC channel. -/
  enc : EncState
  /-- The DEC channel. -/
  dec : DecState
  /-- What the host drives on the input ports now; the next step samples it. -/
  ports : InPorts
  /-- The model's own field: what the host drives at the steps after that, first first (DESIGN CHOICE, safe,
  notes/assumptions/2.md). -/
  script : List InPorts
deriving DecidableEq, Repr

/-- Reasons a step can stop with a fault. `InputTooLong` is not one of them: its entry is a next state (60_exceptions.md
R262). -/
inductive Fault where
  /-- A write to an address of `enc_buf` above 17, which does not exist (20_memory.md R60, R61). Raised by `memWrite`,
  hence by `ENC.CHAR` and `ENC.END`, only in states outside the invariant of R45, which no step reaches (R63). DESIGN CHOICE,
  safe (notes/assumptions/5.md). -/
  | bufferAddress (a : Nat)
deriving DecidableEq, Repr

/-- Reasons an instruction has no meaning. -/
inductive Refusal where
  /-- Raised by `exec` for an instruction that is not modelled. No arm raises it: every command has its meaning. Safe. -/
  | notModelled (mnemonic : String)
deriving DecidableEq, Repr

/-! ## Named record updates -/

/-- Replace the ENC channel. -/
def State.setEnc (s : State) (e : EncState) : State := { s with enc := e }

/-- Replace the DEC channel. -/
def State.setDec (s : State) (d : DecState) : State := { s with dec := d }

/-- Replace the host's side: the ports now and what follows. -/
def State.setHost (s : State) (p : InPorts) (rest : List InPorts) : State := { s with ports := p, script := rest }

/-- Write the registers of `bit_pack_encoder` (41_bit_pack_encoder.md R150). -/
def EncState.setPack (e : EncState) (acc : BitVec 7) (nbits : BitVec 3) (wr : BitVec 5) : EncState :=
  { e with acc := acc, nbits := nbits, wr := wr }

/-- Replace the payload buffer. -/
def EncState.setBuf (e : EncState) (m : Memory) : EncState := { e with buf := m }

/-- Write the registers of `bit_unpack_decoder` (43_bit_unpack_decoder.md R180). -/
def DecState.setUnpack (d : DecState) (acc : BitVec 4) (nbits : BitVec 3) (i : BitVec 8) : DecState :=
  { d with acc := acc, nbits := nbits, i := i }

/-- Write the four lane registers (R35). -/
def DecState.setLanes (d : DecState) (v0 : Bool) (c0 : Byte) (v1 : Bool) (c1 : Byte) : DecState :=
  { d with v0 := v0, c0 := c0, v1 := v1, c1 := c1 }

/-! ## Reset -/

/-- R47: the ENC channel's scalar registers after reset, over a buffer `m` that reset does not write. -/
def EncState.cleared (m : Memory) : EncState :=
  { phase := .collect, raw := 0#5, n := 0#5, acc := 0#7, nbits := 0#3, wr := 1#5, len := 0#5, buf := m }

/-- R47: the DEC channel after reset. -/
def DecState.cleared : DecState :=
  { phase := .len, n := 0#8, i := 0#8, acc := 0#4, nbits := 0#3, v0 := false, c0 := 0#8, v1 := false, c1 := 0#8 }

/-- The machine right after the first reset step (R47, R291): the register values of R47, no location of the buffer
written (DESIGN CHOICE, safe, notes/assumptions/4.md), nothing driven on the ports (DESIGN CHOICE, unsafe,
notes/assumptions/3.md). -/
def State.reset : State :=
  { enc := EncState.cleared [], dec := DecState.cleared, ports := InPorts.idle, script := [] }

end Sys2Proof.Machine
end

