-- ==== Sys2Proof/Machine/Flags.lean ====
section
/-!
DEFINITION. The flag-like signals (spec/10_state.md rule R40): `enc_err`, which mirrors the ENC phase, and the lane valid
bits of the DEC channel with their character codes; and the 2-bit phase codes on the status ports.
-/
namespace Sys2Proof.Machine

/-- `enc_err` (R31): 1 exactly when `enc_phase = FAULT`. -/
def encErr (e : EncState) : Bool :=
  match e.phase with
  | .collect => false
  | .done => false
  | .fault => true

/-- The 2-bit code of `enc_phase` (R24, R41). -/
def encPhaseCode : EncPhase → BitVec 2
  | .collect => 0b00#2
  | .done => 0b01#2
  | .fault => 0b10#2

/-- The 2-bit code of `dec_phase` (R24, R41). -/
def decPhaseCode : DecPhase → BitVec 2
  | .len => 0b00#2
  | .data => 0b01#2
  | .done => 0b10#2

/-- Lane writes (45_decode_channel.md R236): every step of the DEC channel writes all four lane registers from the list
of `(hit, c)` pairs its command built; a missing entry is `(0, 0x00)`. -/
def writeLanes (lanes : List (Bool × Byte)) (d : DecState) : DecState :=
  match lanes with
  | [] => d.setLanes false 0x00#8 false 0x00#8
  | [l0] => d.setLanes l0.1 l0.2 false 0x00#8
  | l0 :: l1 :: _ => d.setLanes l0.1 l0.2 l1.1 l1.2

/-- The characters the lanes show after a step, lane 0 before lane 1 (R35, R236). -/
def laneChars (d : DecState) : List Byte :=
  (if d.v0 then [d.c0] else []) ++ (if d.v1 then [d.c1] else [])

end Sys2Proof.Machine
end

