-- ==== Sys2Proof/Machine/Operands.lean ====
section
/-!
DEFINITION. The operand decodings of the block (spec/30_encoding.md rule R104): the alphabet table, character code to
code point, window to character code, and the bit fields the two datapaths cut out of their 12-bit register `t`.
-/
namespace Sys2Proof.Machine

/-- The alphabet: the 29 character codes in code point order (R90, R37). The codes are those of R90
(UNVERIFIED, unsafe for claims that name a code, notes/assumptions/7.md). -/
def alphabet : List Byte :=
  [0x61#8, 0x62#8, 0x63#8, 0x64#8, 0x65#8, 0x66#8, 0x67#8, 0x68#8, 0x69#8, 0x6A#8,
   0x6B#8, 0x6C#8, 0x6D#8, 0x6E#8, 0x6F#8, 0x70#8, 0x71#8, 0x72#8, 0x73#8, 0x74#8,
   0x75#8, 0x76#8, 0x77#8, 0x78#8, 0x79#8, 0x7A#8, 0x2E#8, 0x5F#8, 0x2D#8]

/-- `cp(c)` in the closed form of R92; `none` is the outcome NONE. -/
def cp (c : Byte) : Option Sym :=
  if 0x61#8 ≤ c ∧ c ≤ 0x7A#8 then some ((c - 0x61#8).setWidth 5)
  else if c = 0x2E#8 then some 26#5
  else if c = 0x5F#8 then some 27#5
  else if c = 0x2D#8 then some 28#5
  else none

/-- `sym(k)` as a character code: `ALPHABET[k]` (R11); `none` for 29, 30, 31, which name no symbol (R91). -/
def sym (k : Sym) : Option Byte := alphabet[k.toNat]?

/-- `MAP.C2S` (40_symbol_map.md R132): `(hit, k)`. -/
def mapC2S (c : Byte) : Bool × Sym :=
  match cp c with
  | none => (false, 0#5)
  | some k => (true, k)

/-- `MAP.S2C` (R134): `(hit, c)`; a window of 29 or more is skipped. -/
def mapS2C (w : Sym) : Bool × Byte :=
  if w < 29#5 then (true, (sym w).getD 0x00#8) else (false, 0x00#8)

/-- The slice `t[lo+len-1 : lo]` of the 12-bit register of a datapath (R7). Bits above bit 11 read as zero, which only a
state outside the invariants of R45 and R46 can ask for (DESIGN CHOICE, unsafe there, notes/assumptions/6.md). -/
def field (t : BitVec 12) (lo len : Nat) : BitVec len := t.extractLsb' lo len

/-- `zext_w(t[k-1 : 0])`: the low `k` bits of `t`, zero extended; 0 for `k = 0` (R152, R182). -/
def lowBits (w : Nat) (t : BitVec 12) (k : Nat) : BitVec w := BitVec.ofNat w (t.toNat % 2 ^ k)

end Sys2Proof.Machine
end

