-- ==== Sys2Proof/Machine/Ops.lean ====
section
/-!
DEFINITION. The named operations: the payload buffer and its read port (spec/20_memory.md), the internal operations of the
four units (spec/30_encoding.md rule R105), the fault entry of `InputTooLong` and the two ways out of it
(spec/60_exceptions.md rules R262, R264).
-/
namespace Sys2Proof.Machine

/-! ## Byte memory -/

/-- The byte at an address; `none` where nothing has written one. -/
def Memory.read? : Memory → Nat → Option Byte
  | [], _ => none
  | (a, v) :: m, b => if b = a then some v else Memory.read? m b

/-- Store a byte, keeping the addresses strictly rising. An unlisted address holds no value, so no byte written is ever
what an unlisted address reads as, and every byte written is listed. -/
def Memory.write : Memory → Nat → Byte → Memory
  | [], b, v => [(b, v)]
  | (a, u) :: m, b, v =>
    if b < a then (b, v) :: (a, u) :: m
    else if b = a then (a, v) :: m
    else (a, u) :: Memory.write m b v

/-- Canonical form of the payload buffer: addresses strictly rising, every one a location of the buffer (R60). -/
def Memory.wf : Memory → Bool
  | [] => true
  | [(a, _)] => decide (a < Config.maxPayload)
  | (a, _) :: (b, v) :: m => decide (a < b) && decide (a < Config.maxPayload) && Memory.wf ((b, v) :: m)

/-- `MemWrite(a, 1, v)` (R60): `enc_buf[a] <- v`. An address above 17 does not exist (R61): a fault by name, which no
reachable state raises (R63; notes/assumptions/5.md). -/
def memWrite (a : Nat) (v : Byte) (e : EncState) : Except Fault EncState :=
  if a < Config.maxPayload then .ok (e.setBuf (e.buf.write a v)) else .error (.bufferAddress a)

/-- `MemRead(a, 1)` (R60). At an address nothing has written it is the free value (notes/assumptions/4.md). -/
def memRead (a : Nat) (e : EncState) : Byte := (e.buf.read? a).getD (Config.staleByte a)

/-- `EncRead(a)`, the combinational read port (R62): `(enc_rd_valid, enc_rd_data)`. -/
def encRead (e : EncState) (a : BitVec 5) : Bool × Byte :=
  if e.phase = .done ∧ a < e.len then (true, memRead a.toNat e) else (false, 0x00#8)

/-! ## bit_pack_encoder -/

/-- `PACK.CLEAR` (41_bit_pack_encoder.md R151). -/
def packClear (e : EncState) : EncState := e.setPack 0#7 0#3 1#5

/-- `PACK.PUSH k` (R152). -/
def packPush (k : Sym) (e : EncState) : Except Fault EncState :=
  let t : BitVec 12 := e.acc ++ k
  let m := e.nbits.toNat + 5
  if 8 ≤ m then
    (memWrite e.wr.toNat (field t (m - 8) 8) e).map fun e' =>
      e'.setPack (lowBits 7 t (m - 8)) (BitVec.ofNat 3 (m - 8)) (e.wr + 1#5)
  else .ok (e.setPack (field t 0 7) (BitVec.ofNat 3 m) e.wr)

/-- `PACK.FLUSH` (R154). -/
def packFlush (e : EncState) : Except Fault EncState :=
  if 0#3 < e.nbits then
    (memWrite e.wr.toNat (e.acc.setWidth 8 <<< (8 - e.nbits.toNat)) e).map fun e' =>
      e'.setPack 0#7 0#3 (e.wr + 1#5)
  else .ok (e.setPack 0#7 0#3 e.wr)

/-! ## length_encoder and length_decoder -/

/-- `LEN.PREPEND` (42_length_codec.md R172), over the `enc_wr` that `PACK.FLUSH` leaves. -/
def lenPrepend (e : EncState) : Except Fault EncState :=
  (memWrite 0 (e.n.setWidth 8) e).map fun e' => { e' with len := e'.wr }

/-- `LEN.EXTRACT b` (R174). -/
def lenExtract (b : Byte) (d : DecState) : DecState := { d with n := b, i := 0#8, phase := .data }

/-! ## bit_unpack_decoder -/

/-- `UNPACK.CLEAR` (43_bit_unpack_decoder.md R181). -/
def unpackClear (d : DecState) : DecState := d.setUnpack 0#4 0#3 0#8

/-- The end of `UNPACK.LOAD` (R182): `i2` windows have been read and `m2` bits of `t` are left, which are dropped when
the last window has been read. -/
def unpackKeep (t : BitVec 12) (m2 : Nat) (i2 : BitVec 8) (d : DecState) : DecState :=
  if i2 = d.n then d.setUnpack 0#4 0#3 i2
  else d.setUnpack (lowBits 4 t m2) (BitVec.ofNat 3 m2) i2

/-- `UNPACK.LOAD b` (R182): the new registers and the one or two windows read, in stream order. The caller performs it
only in phase DATA with `dec_i < dec_n` (45_decode_channel.md R234). -/
def unpackLoad (b : Byte) (d : DecState) : DecState × List Sym :=
  let t : BitVec 12 := d.acc ++ b
  let m0 := d.nbits.toNat + 8
  let w0 := field t (m0 - 5) 5
  let m1 := m0 - 5
  let i1 := d.i + 1#8
  if 5 ≤ m1 ∧ i1 < d.n then
    (unpackKeep t (m1 - 5) (i1 + 1#8) d, [w0, field t (m1 - 5) 5])
  else (unpackKeep t m1 i1 d, [w0])

/-- `UNPACK.DROP` (R184). -/
def unpackDrop (d : DecState) : DecState := d.setUnpack 0#4 0#3 d.i

/-! ## Taking the exception and leaving it -/

/-- `raise InputTooLong` (60_exceptions.md R262): the whole of the fault entry. Nothing is saved, `enc_buf` is not
written, control goes nowhere. -/
def raiseInputTooLong (e : EncState) : EncState :=
  packClear { e with phase := .fault, raw := 28#5, n := 0#5, len := 0#5 }

/-- The ENC channel's clearing, which is also the only command that leaves FAULT (R264, 44_encode_channel.md R202).
`enc_buf` is not written. -/
def clearEnc (e : EncState) : EncState :=
  packClear { e with phase := .collect, raw := 0#5, n := 0#5, len := 0#5 }

/-- The DEC channel's clearing (45_decode_channel.md R232). -/
def clearDec (d : DecState) : DecState := writeLanes [] (unpackClear { d with phase := .len, n := 0#8 })

/-- A reset step's register writes (10_state.md R47, 70_reset_and_hazards.md R290): both channels take their reset values
and `enc_buf` is not written. -/
def resetRegisters (s : State) : State :=
  (s.setEnc (EncState.cleared s.enc.buf)).setDec DecState.cleared

/-! ## The outcome of a channel operation -/

/-- A next state with the ENC channel replaced, or the fault of the buffer write. -/
def encOutcome (s : State) (r : Except Fault EncState) : Host.Outcome State Fault Refusal :=
  match r with
  | .ok e => .next (s.setEnc e)
  | .error f => .fault f

end Sys2Proof.Machine
end

