-- ==== Sys2Proof/Machine/DecChannel.lean ====
section
/-!
DEFINITION. The meanings of the four DEC commands (spec/45_decode_channel.md rules R231 to R240). Each answers a next
state in every phase for every operand (R247, R248); none reads or writes the ENC channel or the host's side.
-/
namespace Sys2Proof.Machine

/-- `DEC.NOP` (R231): the lanes are cleared, nothing else is written. -/
def execDecNop (s : State) : Host.Outcome State Fault Refusal := .next (s.setDec (writeLanes [] s.dec))

/-- `DEC.START` (R232). -/
def execDecStart (s : State) : Host.Outcome State Fault Refusal := .next (s.setDec (clearDec s.dec))

/-- `DEC.BYTE b` (R234, R236). -/
def execDecByte (b : Byte) (s : State) : Host.Outcome State Fault Refusal :=
  match s.dec.phase with
  | .len => .next (s.setDec (writeLanes [] (lenExtract b s.dec)))
  | .data =>
    if s.dec.i < s.dec.n then
      let r := unpackLoad b s.dec
      .next (s.setDec (writeLanes (r.2.map mapS2C) r.1))
    else .next (s.setDec (writeLanes [] s.dec))
  | .done => .next (s.setDec (writeLanes [] s.dec))

/-- `DEC.END` (R240). -/
def execDecEnd (s : State) : Host.Outcome State Fault Refusal :=
  match s.dec.phase with
  | .len => .next (s.setDec (writeLanes [] { unpackDrop s.dec with phase := .done }))
  | .data => .next (s.setDec (writeLanes [] { unpackDrop s.dec with phase := .done }))
  | .done => .next (s.setDec (writeLanes [] s.dec))

end Sys2Proof.Machine
end

