-- ==== Sys2Proof/Machine/EncChannel.lean ====
section
/-!
DEFINITION. The meanings of the four ENC commands (spec/44_encode_channel.md rules R201 to R209). None reads or writes
the DEC channel or the host's side.
-/
namespace Sys2Proof.Machine

/-- `ENC.NOP` (R201): no register is written. -/
def execEncNop (s : State) : Host.Outcome State Fault Refusal := .next s

/-- `ENC.START` (R202). -/
def execEncStart (s : State) : Host.Outcome State Fault Refusal := .next (s.setEnc (clearEnc s.enc))

/-- `ENC.CHAR c` (R204 to R207). The order of the tests is the rule's: phase, then raw length, then filter. -/
def execEncChar (c : Byte) (s : State) : Host.Outcome State Fault Refusal :=
  match s.enc.phase with
  | .collect =>
    if s.enc.raw = 27#5 then .next (s.setEnc (raiseInputTooLong s.enc))
    else
      match mapC2S c with
      | (true, k) =>
        encOutcome s ((packPush k s.enc).map fun e => { e with raw := s.enc.raw + 1#5, n := s.enc.n + 1#5 })
      | (false, _) => .next (s.setEnc { s.enc with raw := s.enc.raw + 1#5 })
  | .done => .next s
  | .fault => .next s

/-- `ENC.END` (R208, R209). -/
def execEncEnd (s : State) : Host.Outcome State Fault Refusal :=
  match s.enc.phase with
  | .collect =>
    encOutcome s (((packFlush s.enc).bind lenPrepend).map fun e => { e with phase := .done })
  | .done => .next s
  | .fault => .next s

end Sys2Proof.Machine
end

