-- ==== Sys2Proof/Syntax.lean ====
section
/-!
DEFINITION. The abstract syntax: the eight host commands (spec/30_encoding.md rule R100), one constructor per row of
spec/opcode_table.json, and the lines of the textual notation (R106), which add the two non-commands `RESET` and
`ENC.READ a`.
-/
namespace Sys2Proof

/-- The two agents of the CORE (10_state.md R20); also the two formats of the command word (R101). -/
inductive Channel where
  | enc
  | dec
deriving DecidableEq, Repr

/-- The host commands (R100). `NOP`, `START` and `END` do not read the data port (R102), so they carry no operand. -/
inductive Instr where
  /-- `ENC.NOP` (44_encode_channel.md R201). -/
  | encNop
  /-- `ENC.START` (R202). -/
  | encStart
  /-- `ENC.CHAR c` (R204): one character of the input. -/
  | encChar (c : Byte)
  /-- `ENC.END` (R208). -/
  | encEnd
  /-- `DEC.NOP` (45_decode_channel.md R231). -/
  | decNop
  /-- `DEC.START` (R232). -/
  | decStart
  /-- `DEC.BYTE b` (R234): one byte of the payload. -/
  | decByte (b : Byte)
  /-- `DEC.END` (R240). -/
  | decEnd
deriving DecidableEq, Repr

/-- One line of the textual notation (R106). Operands are the numbers written in the text, so they are `Nat` here and
checked in WellFormed: 0..255 for `ENC.CHAR` and `DEC.BYTE`, 0..31 for the 5-bit address of `ENC.READ`. -/
inductive Line where
  | encNop
  | encStart
  | encChar (c : Nat)
  | encEnd
  | decNop
  | decStart
  | decByte (b : Nat)
  | decEnd
  /-- Not a command: one step with `rst = 1`. -/
  | reset
  /-- Not a command: sample the read port at address `a`; no step, no state change. -/
  | encRead (a : Nat)
deriving DecidableEq, Repr

end Sys2Proof
end

