-- ==== Sys2Proof/Machine/Dispatch.lean ====
section
/-!
DEFINITION. One arm per command, each a direct call of its meaning.
-/
namespace Sys2Proof.Machine
open Sys2Proof

def exec (i : Instr) (s : State) : Host.Outcome State Fault Refusal :=
  match i with
  | .encNop => Sys2Proof.Machine.execEncNop s
  | .encStart => Sys2Proof.Machine.execEncStart s
  | .encChar c => Sys2Proof.Machine.execEncChar c s
  | .encEnd => Sys2Proof.Machine.execEncEnd s
  | .decNop => Sys2Proof.Machine.execDecNop s
  | .decStart => Sys2Proof.Machine.execDecStart s
  | .decByte b => Sys2Proof.Machine.execDecByte b s
  | .decEnd => Sys2Proof.Machine.execDecEnd s

end Sys2Proof.Machine
end

