-- ==== Sys2Proof/Decode.lean ====
section
/-!
DEFINITION. Decoding of command words and the encoder (spec/30_encoding.md rules R100 to R102, the table's match and
mask columns in spec/opcode_table.json). On the hardware `cmd` and `data` are two ports sampled in the same step; the
10-bit word and its two-byte form are notation (R101; notes/assumptions/1.md).
-/
namespace Sys2Proof

/-- Why a byte sequence is no command word. -/
inductive DecodeError where
  /-- Fewer than two bytes. -/
  | truncated
  /-- A bit above the 10-bit word and the channel tag is set (bits 15..11 of the two-byte form). -/
  | notACommandWord
deriving DecidableEq, Repr

/-- R100, R101: the command a channel's port carries. Every one of the four codes is defined on both channels, and
`data` is read by `CHAR` and `BYTE` only (R102). -/
def decodeCommand (ch : Channel) (cmd : BitVec 2) (data : Byte) : Instr :=
  match ch with
  | .enc =>
    if cmd = 0b00#2 then .encNop
    else if cmd = 0b01#2 then .encStart
    else if cmd = 0b10#2 then .encChar data
    else .encEnd
  | .dec =>
    if cmd = 0b00#2 then .decNop
    else if cmd = 0b01#2 then .decStart
    else if cmd = 0b10#2 then .decByte data
    else .decEnd

/-- R101: `cmd = word[9:8]`. -/
def wordCmd (w : CmdWord) : BitVec 2 := w.extractLsb' 8 2

/-- R101: `data = word[7:0]`. -/
def wordData (w : CmdWord) : Byte := w.extractLsb' 0 8

/-- The instruction a 10-bit word of a channel's format stands for (R101). Total: no word is reserved (R100). -/
def decodeWord (ch : Channel) (w : CmdWord) : Instr :=
  decodeCommand ch (wordCmd w) (wordData w)

/-- The two-byte form of a command word, low byte first, bit numbers as in spec/opcode_table.json. The table gives both
channels the same words, so the model tags the DEC format with bit 10 (bit 2 of the second byte), which no word of the
table uses. DESIGN CHOICE, unsafe for a bare word without its channel
(notes/assumptions/1.md). Answers the instruction and the bytes left. -/
def decode : List Byte → Except DecodeError (Instr × List Byte)
  | lo :: hi :: rest =>
    if hi.extractLsb' 3 5 = 0#5 then
      .ok (decodeWord (if hi.getLsbD 2 then .dec else .enc) (hi.extractLsb' 0 2 ++ lo), rest)
    else .error .notACommandWord
  | [_] => .error .truncated
  | [] => .error .truncated

/-- `w` as the two bytes of `decode`, the first holding bits 7..0; none where a bit above bit 15 is set. -/
def tableWordBytes (w : Nat) : Option (List Byte) :=
  if w < 65536 then some [BitVec.ofNat 8 w, BitVec.ofNat 8 (w / 256)] else none

/-- The channel and the 10-bit word of a table word, where it is one. -/
def tableWordParts (nbits w : Nat) : Option (Channel × CmdWord) :=
  let w := w % 2 ^ nbits
  if w < 2048 then some (if w / 1024 = 1 then .dec else .enc, BitVec.ofNat 10 w) else none

/-- The instruction the decoder reads from a table word: the word is laid out as two bytes and given to `decode`. An
untagged word is read in the ENC format (notes/assumptions/1.md). -/
def decodeTableWord (nbits w : Nat) : Option Instr :=
  match tableWordBytes (w % 2 ^ nbits) with
  | none => none
  | some bs =>
    match decode bs with
    | .ok (i, _) => some i
    | .error _ => none

/-! ## The encoder -/

/-- The channel a command belongs to (R100). -/
def channelOf : Instr → Channel
  | .encNop => .enc
  | .encStart => .enc
  | .encChar _ => .enc
  | .encEnd => .enc
  | .decNop => .dec
  | .decStart => .dec
  | .decByte _ => .dec
  | .decEnd => .dec

/-- The 2-bit command code (R100). -/
def codeOf : Instr → BitVec 2
  | .encNop => 0b00#2
  | .encStart => 0b01#2
  | .encChar _ => 0b10#2
  | .encEnd => 0b11#2
  | .decNop => 0b00#2
  | .decStart => 0b01#2
  | .decByte _ => 0b10#2
  | .decEnd => 0b11#2

/-- The data field: the operand of `CHAR` and `BYTE`; the don't-care field of the others is written as zero (R102). -/
def dataOf : Instr → Byte
  | .encNop => 0#8
  | .encStart => 0#8
  | .encChar c => c
  | .encEnd => 0#8
  | .decNop => 0#8
  | .decStart => 0#8
  | .decByte b => b
  | .decEnd => 0#8

/-- R101: the 10-bit command word `cmd, data`. -/
def encodeWord (i : Instr) : CmdWord := codeOf i ++ dataOf i

/-- The two-byte form of `decode`: data byte, then command code with the channel tag above it. -/
def encode (i : Instr) : List Byte :=
  [dataOf i, (if channelOf i = .dec then 4#8 else 0#8) ||| (codeOf i).setWidth 8]

/-- R101: `match = code << 8` of a command's row. -/
def rowMatch (i : Instr) : CmdWord := (codeOf i).setWidth 10 <<< 8

/-- R101: the mask every row has. -/
def rowMask : CmdWord := 0x300#10

end Sys2Proof
end

