-- ==== Sys2Proof/Machine/Ports.lean ====
section
/-!
DEFINITION. The ports (spec/10_state.md rule R22): the commands the input ports carry, the host's moving on to the next
sample, and the outputs as functions of the state.
-/
namespace Sys2Proof.Machine
open Sys2Proof

/-- The command the ENC channel's ports carry (R21, R100). -/
def encCommandAt (p : InPorts) : Instr := decodeCommand .enc p.encCmd p.encChar

/-- The command the DEC channel's ports carry (R21, R100). -/
def decCommandAt (p : InPorts) : Instr := decodeCommand .dec p.decCmd p.decByte

/-- After a step the host drives its next sample; once its script is used up it drives nothing
(DESIGN CHOICE: safe, notes/assumptions/2.md; unsafe, notes/assumptions/3.md). -/
def hostAdvance (s : State) : State := s.setHost (s.script.headD InPorts.idle) s.script.tail

/-- The host drives `ps` from now on, first first, and nothing after it. -/
def drive (ps : List InPorts) (s : State) : State := s.setHost (ps.headD InPorts.idle) ps.tail

/-- The ports with the 10-bit word `w` on one channel, `NOP` on the other and `rst = 0`, over the read address of `p`. -/
def wordOnPorts (ch : Channel) (w : CmdWord) (p : InPorts) : InPorts :=
  match ch with
  | .enc => { p with rst := false, encCmd := wordCmd w, encChar := wordData w, decCmd := 0#2, decByte := 0#8 }
  | .dec => { p with rst := false, encCmd := 0#2, encChar := 0#8, decCmd := wordCmd w, decByte := wordData w }

/-- The output ports (R22). -/
structure OutPorts where
  /-- `enc_phase`. -/
  encPhase : BitVec 2
  /-- `enc_err`. -/
  encErr : Bool
  /-- `enc_n`. -/
  encN : BitVec 5
  /-- `enc_len`. -/
  encLen : BitVec 5
  /-- `enc_rd_valid`. -/
  encRdValid : Bool
  /-- `enc_rd_data`. -/
  encRdData : Byte
  /-- `dec_phase`. -/
  decPhase : BitVec 2
  /-- `dec_n`. -/
  decN : BitVec 8
  /-- `dec_i`. -/
  decI : BitVec 8
  /-- `dec_v0`. -/
  decV0 : Bool
  /-- `dec_c0`. -/
  decC0 : Byte
  /-- `dec_v1`. -/
  decV1 : Bool
  /-- `dec_c1`. -/
  decC1 : Byte
deriving DecidableEq, Repr

/-- R22: every output is a function of the registers as they stand and, for the read port, of `enc_rd_addr`
(R31, R32, R36, R62; DEDUCED, safe, notes/assumptions/8.md). -/
def outputs (s : State) : OutPorts :=
  { encPhase := encPhaseCode s.enc.phase
    encErr := encErr s.enc
    encN := s.enc.n
    encLen := s.enc.len
    encRdValid := (encRead s.enc s.ports.encRdAddr).1
    encRdData := (encRead s.enc s.ports.encRdAddr).2
    decPhase := decPhaseCode s.dec.phase
    decN := s.dec.n
    decI := s.dec.i
    decV0 := s.dec.v0
    decC0 := s.dec.c0
    decV1 := s.dec.v1
    decC1 := s.dec.c1 }

end Sys2Proof.Machine
end

