-- ==== Sys2Proof/Machine/Step.lean ====
section
/-!
DEFINITION. The step (spec/10_state.md rule R21): both command ports are sampled once; `rst` wins over both commands
(60_exceptions.md R265); otherwise each channel takes its command. The channels share nothing, so the order in which the
two commands are written down here makes no difference (DEDUCED, safe, notes/assumptions/8.md).
-/
namespace Sys2Proof.Machine
open Sys2Proof

/-- One step of the CORE (R21), after which the host drives its next sample. -/
def step (s : State) : Host.Outcome State Fault Refusal :=
  if s.ports.rst then .next (hostAdvance (resetRegisters s))
  else
    match exec (encCommandAt s.ports) s with
    | .next t =>
      match exec (decCommandAt s.ports) t with
      | .next u => .next (hostAdvance u)
      | .fault f => .fault f
      | .refused r => .refused r
    | .fault f => .fault f
    | .refused r => .refused r

/-- The state with a table word on its channel's ports (an untagged word on the ENC ports), `NOP` on the other channel
and `rst = 0`: the next step takes exactly that command. A number that is no command word changes nothing
(DESIGN CHOICE: unsafe, notes/assumptions/1.md; safe, notes/assumptions/2.md). -/
def State.withFetchWord (s : State) (nbits w : Nat) : State :=
  match tableWordParts nbits w with
  | some (ch, cw) => s.setHost (wordOnPorts ch cw s.ports) s.script
  | none => s

end Sys2Proof.Machine
end

