-- ==== Sys2Proof/Machine/Reference.lean ====
section
/-!
DEFINITION. The reference functions (spec/00_scope.md rules R8, R11 to R16): what a whole transaction computes, as pure
functions on finite lists. They do not mention the registers; 44_encode_channel.md R217 and 45_decode_channel.md R246 tie
the machine to them.
-/
namespace Sys2Proof.Machine

/-- The one failure of Encode (R14). -/
inductive CodecError where
  | inputTooLong
deriving DecidableEq, Repr

/-- `uint` of a bit stream, first bit most significant (R8). -/
def uint (s : List Bool) : Nat := s.foldl (fun x b => 2 * x + b.toNat) 0

/-- `bits5(k)` (R12). -/
def bits5 (k : Sym) : List Bool := [k.getLsbD 4, k.getLsbD 3, k.getLsbD 2, k.getLsbD 1, k.getLsbD 0]

/-- `bits8(b)` (R12). -/
def bits8 (b : Byte) : List Bool :=
  [b.getLsbD 7, b.getLsbD 6, b.getLsbD 5, b.getLsbD 4, b.getLsbD 3, b.getLsbD 2, b.getLsbD 1, b.getLsbD 0]

/-- The bit stream of a list of code points (R13, R93). -/
def symStream (ks : List Sym) : List Bool := ks.flatMap bits5

/-- The bit stream of a list of data bytes (R15). -/
def byteStream (bs : List Byte) : List Bool := bs.flatMap bits8

/-- `ceil(5n / 8)` = `(5n + 7) div 8` (R13, R94). -/
def dataBytes (n : Nat) : Nat := (5 * n + 7) / 8

/-- Byte `j` of a stream: `uint(s[8j .. 8j+8))` (R13). -/
def streamByte (s : List Bool) (j : Nat) : Byte := BitVec.ofNat 8 (uint ((s.drop (8 * j)).take 8))

/-- Window `i` of a stream: `uint(s[5i .. 5i+5))` (R15). -/
def streamWindow (s : List Bool) (i : Nat) : Sym := BitVec.ofNat 5 (uint ((s.drop (5 * i)).take 5))

/-- `pack5` (R13): the stream padded on the right with zero bits to whole bytes. -/
def pack5 (ks : List Sym) : List Byte :=
  let m := dataBytes ks.length
  let s := symStream ks ++ List.replicate (8 * m - 5 * ks.length) false
  (List.range m).map (streamByte s)

/-- The code points of the valid characters, in order (R14). -/
def validSyms (cs : List Byte) : List Sym := cs.filterMap cp

/-- `Encode` (R14): the length test is on the raw input. -/
def encodeRef (cs : List Byte) : Except CodecError (List Byte) :=
  if Config.maxLen < cs.length then .error .inputTooLong
  else .ok (BitVec.ofNat 8 (validSyms cs).length :: pack5 (validSyms cs))

/-- `unpack5` (R15): the windows that are fully available, at most `n`. -/
def unpack5 (data : List Byte) (n : Nat) : List Sym :=
  let s := byteStream data
  ((List.range n).takeWhile fun i => decide (5 * i + 5 ≤ s.length)).map (streamWindow s)

/-- The characters of a list of windows: those below 29, in order (R16). -/
def windowChars (ws : List Sym) : List Byte := (ws.filter fun w => decide (w < 29#5)).filterMap sym

/-- `Decode` (R16). It never fails. -/
def decodeRef : List Byte → List Byte
  | [] => []
  | n :: data => if n = 0#8 then [] else windowChars (unpack5 data n.toNat)

end Sys2Proof.Machine
end

