-- ==== Sys2Proof/WellFormed.lean ====
section
/-!
DEFINITION. Well-formedness. The operand of a command is a `Byte`, and all 256 values are legal on both ports
(spec/30_encoding.md rules R92, R96, R98, R99), so every term of `Instr` is a well-formed instruction: no check is left to
make on it. The lines of the textual notation carry numbers, which R106 bounds; those bounds are checked here.
-/
namespace Sys2Proof

/-- Every term of `Instr` is well formed: the types carry every bound the spec states (R100 to R102). -/
def Instr.wf (_ : Instr) : Bool := true

/-- The bounds R106 puts on the operands of a line: a number 0..255 for `ENC.CHAR` and `DEC.BYTE`, an address the 5-bit
port `enc_rd_addr` can express for `ENC.READ`. -/
def Line.wf : Line → Bool
  | .encNop => true
  | .encStart => true
  | .encChar c => decide (c < 256)
  | .encEnd => true
  | .decNop => true
  | .decStart => true
  | .decByte b => decide (b < 256)
  | .decEnd => true
  | .reset => true
  | .encRead a => decide (a < 32)

/-- The command a well-formed line stands for; `RESET` and `ENC.READ` are no commands (R106), and an operand out of
range stands for nothing. -/
def Line.command? : Line → Option Instr
  | .encNop => some .encNop
  | .encStart => some .encStart
  | .encChar c => if c < 256 then some (.encChar (BitVec.ofNat 8 c)) else none
  | .encEnd => some .encEnd
  | .decNop => some .decNop
  | .decStart => some .decStart
  | .decByte b => if b < 256 then some (.decByte (BitVec.ofNat 8 b)) else none
  | .decEnd => some .decEnd
  | .reset => none
  | .encRead _ => none

end Sys2Proof
end

