-- ==== Sys2Proof/Machine/Program.lean ====
section
/-!
DEFINITION. Programs in the textual notation (spec/30_encoding.md rules R106, R107), runs of several steps, and the output
of a transaction (spec/45_decode_channel.md rule R236).
-/
namespace Sys2Proof.Machine
open Sys2Proof

/-- The ports of a step in which one channel takes `i` and the other, whose line it is not, `NOP` (R106;
DEDUCED, unsafe for the lanes beside ENC lines, notes/assumptions/8.md). -/
def portsOf (i : Instr) : InPorts :=
  match channelOf i with
  | .enc => { InPorts.idle with encCmd := codeOf i, encChar := dataOf i }
  | .dec => { InPorts.idle with decCmd := codeOf i, decByte := dataOf i }

/-- The ports of a step in which both channels take a command (R21; the rows of program P4 of 95_test_vectors.md). -/
def portsOfBoth (e d : Instr) : InPorts :=
  { InPorts.idle with encCmd := codeOf e, encChar := dataOf e, decCmd := codeOf d, decByte := dataOf d }

/-- The steps a line takes: one for a command and for `RESET`, none for `ENC.READ` (R106). -/
def lineSteps (l : Line) : List InPorts :=
  match l with
  | .reset => [{ InPorts.idle with rst := true }]
  | .encRead _ => []
  | l => match l.command? with
    | some i => [portsOf i]
    | none => []

/-- A program as what the host drives: its lines top to bottom, one step per line (R106). -/
def assemble (ls : List Line) : List InPorts := ls.flatMap lineSteps

/-- The pseudo-instruction `ENCODE "c0 … cL-1"` (R107). -/
def encodeCommands (cs : List Byte) : List Instr := .encStart :: (cs.map .encChar ++ [.encEnd])

/-- The pseudo-instruction `DECODE b0 … bM-1` (R107). -/
def decodeCommands (bs : List Byte) : List Instr := .decStart :: (bs.map .decByte ++ [.decEnd])

/-- The pseudo-instruction `ENC.READALL` (R107): the bytes read at addresses `0 .. enc_len - 1`. -/
def encReadAll (e : EncState) : List Byte :=
  (List.range e.len.toNat).map fun a => (encRead e (BitVec.ofNat 5 a)).2

/-- `k` steps, stopping at the first that answers no next state. -/
def steps : Nat → State → Host.Outcome State Fault Refusal
  | 0, s => .next s
  | k + 1, s =>
    match step s with
    | .next t => steps k t
    | .fault f => .fault f
    | .refused r => .refused r

/-- The commands of one channel, one after another, with no step of the other channel between them. -/
def execAll : List Instr → State → Host.Outcome State Fault Refusal
  | [], s => .next s
  | i :: is, s =>
    match exec i s with
    | .next t => execAll is t
    | .fault f => .fault f
    | .refused r => .refused r

/-- The output of `k` steps (R236): after each step in order, lane 0 if it holds a character, then lane 1. -/
def laneOutput : Nat → State → List Byte
  | 0, _ => []
  | k + 1, s =>
    match step s with
    | .next t => laneChars t.dec ++ laneOutput k t
    | .fault _ => []
    | .refused _ => []

/-- `PACK.PUSH` of each symbol in turn (41_bit_pack_encoder.md R156). -/
def packAll : List Sym → EncState → Except Fault EncState
  | [], e => .ok e
  | k :: ks, e => (packPush k e).bind (packAll ks)

/-- `UNPACK.LOAD` of each data byte in turn, each only while windows are owed, with the windows read
(43_bit_unpack_decoder.md R185). -/
def unpackAll : List Byte → DecState → DecState × List Sym
  | [], d => (d, [])
  | b :: bs, d =>
    if d.i < d.n then
      let r := unpackLoad b d
      let q := unpackAll bs r.1
      (q.1, r.2 ++ q.2)
    else unpackAll bs d

/-- The ports the ENC channel samples (10_state.md R21). -/
def encSide (p : InPorts) : Bool × BitVec 2 × Byte := (p.rst, p.encCmd, p.encChar)

/-- The ports the DEC channel samples (R21). -/
def decSide (p : InPorts) : Bool × BitVec 2 × Byte := (p.rst, p.decCmd, p.decByte)

/-- The characters of the `ENC.CHAR` commands among the samples, in order (R217). -/
def encCharsOf (ps : List InPorts) : List Byte :=
  ps.filterMap fun p => if p.encCmd = 0b10#2 then some p.encChar else none

/-- The bytes of the `DEC.BYTE` commands among the samples, in order (R246). -/
def decBytesOf (ps : List InPorts) : List Byte :=
  ps.filterMap fun p => if p.decCmd = 0b10#2 then some p.decByte else none

end Sys2Proof.Machine
end

