-- ==== Sys2Proof/Safety.lean ====
section
/-!
DEFINITION. What counts as a safe state and a safe step, in the terms the claims use: the invariants of the two channels
(spec/10_state.md rules R45, R46) and a step that answers a next state.
-/
namespace Sys2Proof.Machine

/-- R45, "phase = COLLECT", with `ks` the code points of the valid characters taken so far. -/
structure EncCollectInv (e : EncState) (ks : List Sym) : Prop where
  raw_le : e.raw.toNat ≤ 27
  len_zero : e.len = 0#5
  count : e.n.toNat = ks.length
  codePoints : ∀ k ∈ ks, k < 29#5
  nbits_eq : e.nbits.toNat = 5 * e.n.toNat % 8
  wr_eq : e.wr.toNat = 1 + 5 * e.n.toNat / 8
  written : ∀ j, j < e.wr.toNat - 1 → e.buf.read? (1 + j) = some (streamByte (symStream ks) j)
  pending : e.acc.toNat = uint ((symStream ks).drop (8 * (e.wr.toNat - 1)))

/-- R45, "phase = DONE". -/
structure EncDoneInv (e : EncState) (ks : List Sym) : Prop where
  nbits_zero : e.nbits = 0#3
  acc_zero : e.acc = 0#7
  n_le : e.n.toNat ≤ 27
  count : e.n.toNat = ks.length
  codePoints : ∀ k ∈ ks, k < 29#5
  len_eq : e.len.toNat = 1 + dataBytes e.n.toNat
  wr_eq : e.wr = e.len
  lengthByte : e.buf.read? 0 = some (e.n.setWidth 8)
  payload : ∀ j, j < e.len.toNat - 1 → e.buf.read? (1 + j) = (pack5 ks)[j]?

/-- R45, "phase = FAULT". -/
structure EncFaultInv (e : EncState) : Prop where
  raw_eq : e.raw = 28#5
  n_zero : e.n = 0#5
  nbits_zero : e.nbits = 0#3
  acc_zero : e.acc = 0#7
  wr_one : e.wr = 1#5
  len_zero : e.len = 0#5

/-- R45: the ENC invariants, and the canonical form of the buffer. -/
structure EncInv (e : EncState) : Prop where
  n_le_raw : e.n.toNat ≤ e.raw.toNat
  raw_le : e.raw.toNat ≤ 28
  nbits_le : e.nbits.toNat ≤ 7
  acc_lt : e.acc.toNat < 2 ^ e.nbits.toNat
  wr_pos : 1 ≤ e.wr.toNat
  wr_le : e.wr.toNat ≤ 18
  buf_wf : Memory.wf e.buf = true
  collect : e.phase = .collect → ∃ ks, EncCollectInv e ks
  done : e.phase = .done → ∃ ks, EncDoneInv e ks
  fault : e.phase = .fault → EncFaultInv e

/-- R46, "phase = DATA" while windows are owed: `data` are the data bytes taken so far. -/
structure DecDataInv (d : DecState) (data : List Byte) : Prop where
  i_eq : d.i.toNat = 8 * data.length / 5
  nbits_eq : d.nbits.toNat = 8 * data.length - 5 * d.i.toNat
  pending : d.acc.toNat = uint ((byteStream data).drop (5 * d.i.toNat))

/-- R46: the DEC invariants. -/
structure DecInv (d : DecState) : Prop where
  i_le_n : d.i.toNat ≤ d.n.toNat
  nbits_le : d.nbits.toNat ≤ 4
  acc_lt : d.acc.toNat < 2 ^ d.nbits.toNat
  lane0 : d.v0 = false → d.c0 = 0x00#8
  lane1 : d.v1 = false → d.c1 = 0x00#8
  len : d.phase = .len → d.n = 0#8 ∧ d.i = 0#8 ∧ d.nbits = 0#3 ∧ d.acc = 0#4
  dataAllRead : d.phase = .data → d.i = d.n → d.nbits = 0#3 ∧ d.acc = 0#4
  dataOwed : d.phase = .data → d.i < d.n → ∃ data, DecDataInv d data
  done : d.phase = .done → d.nbits = 0#3 ∧ d.acc = 0#4

/-- R23, R236: a lane that holds a character holds one of the 29 codes of the alphabet, an empty lane `0x00`. -/
structure LanesInv (d : DecState) : Prop where
  lane0 : if d.v0 then d.c0 ∈ alphabet else d.c0 = 0x00#8
  lane1 : if d.v1 then d.c1 ∈ alphabet else d.c1 = 0x00#8

/-- The state invariant: both channels' (R45, R46). -/
structure Inv (s : State) : Prop where
  enc : EncInv s.enc
  dec : DecInv s.dec
  lanes : LanesInv s.dec

/-- A safe step: it answers a next state, neither a fault nor a refusal (R103, R247: nothing traps on a command). -/
def SafeStep (s : State) : Prop := ∃ t, step s = .next t

/-- The ENC channel in its cleared state over any buffer (44_encode_channel.md R200). -/
def EncCleared (e : EncState) : Prop := e = EncState.cleared e.buf

/-- The samples of an ENC transaction before its `ENC.END`: characters and `NOP`s, no reset (R217). -/
def EncOpenSample (p : InPorts) : Prop := p.rst = false ∧ (p.encCmd = 0b00#2 ∨ p.encCmd = 0b10#2)

/-- The samples of a DEC transaction before its `DEC.END`: bytes and `NOP`s, no reset (R246). -/
def DecOpenSample (p : InPorts) : Prop := p.rst = false ∧ (p.decCmd = 0b00#2 ∨ p.decCmd = 0b10#2)

end Sys2Proof.Machine
end

