-- ==== Sys2Proof/Certificates/Slice0/Obligations.lean ====
section
/-!
DEFINITION. The statements for the provers, from the numbered rules of spec/. Each docstring says which sentence it
formalises, or that it is the model's own choice and which log entry names it. The record literals say the new value of
every register a command writes; what a literal does not name is unchanged.
-/
open Sys2Proof Sys2Proof.Machine

/-! ## Encodings -/

/-- 30_encoding.md R101: `{cmd, data}` taken apart gives the command back, in the 10-bit form and in the model's two-byte
form with the channel tag (notes/assumptions/1.md), whatever bytes follow. -/
def Obligations.DecodeOfEncodedCommandIsItself : Prop :=
  ∀ (i : Instr) (rest : List Byte),
    decodeWord (channelOf i) (encodeWord i) = i ∧ decode (encode i ++ rest) = .ok (i, rest)

/-- R100, R101: every 10-bit word of a channel's format matches exactly one row: the row of the command it decodes to, by
`match = code << 8` and `mask = 0x300`; and that command carries the data field exactly where the row is CHAR's or BYTE's. -/
def Obligations.EveryWordMatchesExactlyItsOwnRow : Prop :=
  ∀ (ch : Channel) (w : CmdWord),
    channelOf (decodeWord ch w) = ch ∧
    (∀ i : Instr, channelOf i = ch →
      (w &&& 0x300#10 = rowMatch i ↔ codeOf i = codeOf (decodeWord ch w))) ∧
    (codeOf (decodeWord ch w) = 0b10#2 → dataOf (decodeWord ch w) = w.extractLsb' 0 8)

/-- R102: for NOP, START and END the data port is not read: a step is the same for every value on it. -/
def Obligations.DataPortIsNotReadByOtherCommands : Prop :=
  ∀ (s : State) (x : Byte),
    (s.ports.encCmd ≠ 0b10#2 →
      step (s.setHost { s.ports with encChar := x } s.script) = step s) ∧
    (s.ports.decCmd ≠ 0b10#2 →
      step (s.setHost { s.ports with decByte := x } s.script) = step s)

/-- Words written out from R100, R101 and the programs P1, P2 of 95_test_vectors.md, read by the table decoder; the
DEC words carry the model's tag in bit 10 (notes/assumptions/1.md). -/
def Obligations.SampleWordsDecodeAsWrittenOut : Prop :=
  decodeTableWord 16 0b00_00000000 = some .encNop ∧
  decodeTableWord 16 0b01_00000000 = some .encStart ∧
  decodeTableWord 16 0b10_01101101 = some (.encChar 0x6D#8) ∧
  decodeTableWord 16 0b11_00000000 = some .encEnd ∧
  decodeWord .dec 0b00_00000000#10 = .decNop ∧
  decodeWord .dec 0b01_00000000#10 = .decStart ∧
  decodeWord .dec 0b10_01100110#10 = .decByte 0x66#8 ∧
  decodeWord .dec 0b11_11111111#10 = .decEnd ∧
  decodeTableWord 16 0b1_10_01100110 = some (.decByte 0x66#8)

/-- The model's choice (notes/assumptions/1.md): the two-byte form is refused by name where it is cut short or has a bit
above the tag, and nowhere else. -/
def Obligations.DecoderRefusesExactlyWhatIsNoCommandWord : Prop :=
  (∀ (lo hi : Byte) (rest : List Byte),
    (8 ≤ hi.toNat → decode (lo :: hi :: rest) = .error .notACommandWord) ∧
    (hi.toNat < 8 → ∃ i, decode (lo :: hi :: rest) = .ok (i, rest))) ∧
  (∀ lo : Byte, decode [lo] = .error .truncated) ∧
  decode [] = .error .truncated

/-! ## The symbol map -/

/-- 00_scope.md R11, with the list and the character codes of 30_encoding.md R90 (notes/assumptions/7.md): `cp(c)` is the index of `c` in the alphabet or NONE, `sym(k)` is
`ALPHABET[k]` for the 29 code points, and the two are inverse. -/
def Obligations.AlphabetIndexAndLookupAgree : Prop :=
  alphabet = ['a', 'b', 'c', 'd', 'e', 'f', 'g', 'h', 'i', 'j', 'k', 'l', 'm', 'n', 'o', 'p', 'q', 'r', 's', 't',
    'u', 'v', 'w', 'x', 'y', 'z', '.', '_', '-'].map (fun g : Char => BitVec.ofNat 8 g.toNat) ∧
  alphabet.length = 29 ∧
  (∀ c : Byte, cp c = if c ∈ alphabet then some (BitVec.ofNat 5 (alphabet.idxOf c)) else none) ∧
  (∀ k : Sym, k.toNat ≤ 28 → ∃ c, alphabet[k.toNat]? = some c ∧ sym k = some c ∧ cp c = some k) ∧
  (∀ (c : Byte) (k : Sym), cp c = some k → sym k = some c)

/-- 40_symbol_map.md R130: the two directions are inverse on their hits. -/
def Obligations.SymbolMapDirectionsAreInverseOnHits : Prop :=
  ∀ (c : Byte) (k : Sym), mapS2C k = (true, c) ↔ mapC2S c = (true, k)

/-! ## bit_pack_encoder and bit_unpack_decoder -/

/-- 41_bit_pack_encoder.md R153: after `j` pushes `(5j) div 8` bytes have been written and `(5j) mod 8` bits are pending,
and the `j`-th push writes a byte exactly when `(5 * (j-1)) mod 8 >= 3`, that is for `j mod 8` in 2, 4, 5, 7, 0. -/
def Obligations.PackEmissionSchedule : Prop :=
  (∀ (ks : List Sym) (e : EncState), ks.length ≤ 27 →
    ∃ e', packAll ks (packClear e) = .ok e' ∧
      e'.wr.toNat - 1 = 5 * ks.length / 8 ∧ e'.nbits.toNat = 5 * ks.length % 8) ∧
  (∀ (ks : List Sym) (k : Sym) (e : EncState), ks.length < 27 →
    ∃ e' e'', packAll ks (packClear e) = .ok e' ∧ packPush k e' = .ok e'' ∧
      (if 3 ≤ 5 * ks.length % 8 then
        e''.wr.toNat = e'.wr.toNat + 1 ∧ ∃ b, e''.buf.read? e'.wr.toNat = some b
      else e''.wr = e'.wr ∧ e''.buf = e'.buf) ∧
      (3 ≤ 5 * ks.length % 8 ↔ (ks.length + 1) % 8 ∈ [2, 4, 5, 7, 0]))

/-- R155, R156: after `PACK.CLEAR`, `n <= 27` pushes and `PACK.FLUSH` the bytes at addresses `1 .. ceil(5n/8)` are
`pack5` of the symbols, `enc_wr` is one more than their number, the residue is empty, and no other byte and no register of
the channel outside the unit has changed. -/
def Obligations.PackUnitComputesPack5 : Prop :=
  ∀ (ks : List Sym) (e : EncState), ks.length ≤ 27 →
    ∃ e', (packAll ks (packClear e)).bind packFlush = .ok e' ∧
      e'.wr.toNat = 1 + (5 * ks.length + 7) / 8 ∧ (pack5 ks).length = (5 * ks.length + 7) / 8 ∧
      (5 * ks.length + 7) / 8 = 5 * ks.length / 8 + (if 0 < 5 * ks.length % 8 then 1 else 0) ∧
      (5 * ks.length + 7) / 8 = (5 * ks.length + 7) >>> 3 ∧ 5 * ks.length + 7 ≤ 142 ∧
      e'.acc = 0#7 ∧ e'.nbits = 0#3 ∧
      (∀ j, j < (5 * ks.length + 7) / 8 → e'.buf.read? (1 + j) = (pack5 ks)[j]?) ∧
      (∀ a, a = 0 ∨ (5 * ks.length + 7) / 8 < a → e'.buf.read? a = e.buf.read? a) ∧
      e'.phase = e.phase ∧ e'.raw = e.raw ∧ e'.n = e.n ∧ e'.len = e.len

/-- 43_bit_unpack_decoder.md R185: after `LEN.EXTRACT(n)` and `UNPACK.CLEAR` in either order, the windows of the loads are
`unpack5(data, n)`, `dec_i` ends at their number, and `UNPACK.DROP` leaves no residue. -/
def Obligations.UnpackUnitComputesUnpack5 : Prop :=
  ∀ (n : Byte) (data : List Byte) (d : DecState),
    unpackClear (lenExtract n d) = lenExtract n (unpackClear d) ∧
    (unpackAll data (unpackClear (lenExtract n d))).2 = unpack5 data n.toNat ∧
    (unpackAll data (unpackClear (lenExtract n d))).1.i.toNat = min n.toNat (8 * data.length / 5) ∧
    (unpack5 data n.toNat).length = min n.toNat (8 * data.length / 5) ∧
    unpackDrop (unpackAll data (unpackClear (lenExtract n d))).1 =
      { d with phase := .data, n := n, i := BitVec.ofNat 8 (min n.toNat (8 * data.length / 5)),
               acc := 0#4, nbits := 0#3 }

/-! ## The ENC commands -/

/-- 44_encode_channel.md R201: `ENC.NOP` writes no register, in every phase; its word is `00 dddddddd`. -/
def Obligations.EncNopWritesNoRegister : Prop :=
  (∀ d : Byte, decodeWord .enc (0b00#2 ++ d) = .encNop) ∧ ∀ s : State, exec .encNop s = .next s

/-- R202: `ENC.START` writes every scalar register of the channel with its reset value and does not write `enc_buf`, in
every phase; `enc_err` becomes 0, no address is readable, a second one changes nothing, and nothing else of the machine is
touched. It is the only command that leaves FAULT. -/
def Obligations.EncStartClearsTheChannel : Prop :=
  (∀ d : Byte, decodeWord .enc (0b01#2 ++ d) = .encStart) ∧
  ∀ s : State, ∃ t, exec .encStart s = .next t ∧
    t = { s with enc := { phase := .collect, raw := 0#5, n := 0#5, acc := 0#7, nbits := 0#3, wr := 1#5, len := 0#5,
                          buf := s.enc.buf } } ∧
    t.enc = { State.reset.enc with buf := s.enc.buf } ∧
    encErr t.enc = false ∧ (∀ a, encRead t.enc a = (false, 0x00#8)) ∧ exec .encStart t = .next t ∧
    ∀ i u, s.enc.phase = .fault → exec i s = .next u → u.enc.phase ≠ .fault → i = .encStart

/-- R207: `ENC.CHAR` outside COLLECT is taken and writes nothing; a finished payload stays readable. -/
def Obligations.EncCharOutsideCollectWritesNothing : Prop :=
  ∀ (s : State) (c : Byte), s.enc.phase ≠ .collect → exec (.encChar c) s = .next s

/-- R206 and 60_exceptions.md R262: the 28th character raises `InputTooLong` whatever it is and whatever `enc_n` is; the
entry is these register writes and nothing else, `enc_buf` and the DEC channel are not touched, and from then on no address
is readable. -/
def Obligations.TwentyEighthCharacterRaisesInputTooLong : Prop :=
  ∀ (s : State) (c : Byte), s.enc.phase = .collect → s.enc.raw = 27#5 →
    ∃ t, exec (.encChar c) s = .next t ∧
      t = { s with enc := { phase := .fault, raw := 28#5, n := 0#5, acc := 0#7, nbits := 0#3, wr := 1#5, len := 0#5,
                            buf := s.enc.buf } } ∧
      encErr t.enc = true ∧ ∀ a, encRead t.enc a = (false, 0x00#8)

/-- R205: a character outside the alphabet, taken in COLLECT with `enc_raw <= 26`, increments `enc_raw` and changes
nothing else. -/
def Obligations.InvalidCharacterCountsInRawLengthOnly : Prop :=
  ∀ (s : State) (c : Byte), s.enc.phase = .collect → s.enc.raw.toNat ≤ 26 → c ∉ alphabet →
    exec (.encChar c) s = .next { s with enc := { s.enc with raw := s.enc.raw + 1#5 } }

/-- R204 with `PACK.PUSH` (41_bit_pack_encoder.md R152), a valid character, in plain arithmetic: `x` is the pending bits
followed by the 5 bits of the code point. Fewer than 3 bits pending: `x` becomes the residue. Otherwise the 8 oldest bits
of `x` are stored at `enc_wr`, the rest becomes the residue, and every other byte reads as before. What
happens with an `enc_wr` beyond the buffer, which no step reaches, `CommandsStopExactlyOutsideTheBuffer` says. -/
def Obligations.ValidCharacterIsPacked : Prop :=
  ∀ (s : State) (c : Byte) (k : Sym), s.enc.phase = .collect → s.enc.raw.toNat ≤ 26 → cp c = some k →
    s.enc.acc.toNat < 2 ^ s.enc.nbits.toNat →
    let x := s.enc.acc.toNat * 32 + k.toNat
    (s.enc.nbits.toNat < 3 → x < 2 ^ (s.enc.nbits.toNat + 5) ∧
      exec (.encChar c) s = .next { s with enc := { s.enc with
        raw := s.enc.raw + 1#5, n := s.enc.n + 1#5,
        acc := BitVec.ofNat 7 x, nbits := BitVec.ofNat 3 (s.enc.nbits.toNat + 5) } }) ∧
    (3 ≤ s.enc.nbits.toNat → s.enc.wr.toNat ≤ 17 → x / 2 ^ (s.enc.nbits.toNat - 3) < 256 ∧
      ∃ t, exec (.encChar c) s = .next t ∧
        t = { s with enc := { s.enc with
          raw := s.enc.raw + 1#5, n := s.enc.n + 1#5,
          acc := BitVec.ofNat 7 (x % 2 ^ (s.enc.nbits.toNat - 3)),
          nbits := BitVec.ofNat 3 (s.enc.nbits.toNat - 3), wr := s.enc.wr + 1#5, buf := t.enc.buf } } ∧
        t.enc.buf.read? s.enc.wr.toNat = some (BitVec.ofNat 8 (x / 2 ^ (s.enc.nbits.toNat - 3))) ∧
        ∀ a, a ≠ s.enc.wr.toNat → t.enc.buf.read? a = s.enc.buf.read? a)

/-- R208: `ENC.END` in COLLECT, in states that keep the invariant of 10_state.md R45: the pending bits, if any, are stored
at `enc_wr` padded with zeros on the right, the length byte at address 0, every other byte reads as before; the payload is
then readable at exactly the addresses below `enc_len`. -/
def Obligations.EncEndFinishesThePayload : Prop :=
  (∀ d : Byte, decodeWord .enc (0b11#2 ++ d) = .encEnd) ∧
  ∀ s : State, EncInv s.enc → s.enc.phase = .collect →
    ∃ t, exec .encEnd s = .next t ∧
      t = { s with enc := { s.enc with phase := .done, acc := 0#7, nbits := 0#3, wr := t.enc.len, len := t.enc.len,
                                       buf := t.enc.buf } } ∧
      t.enc.len = (if s.enc.nbits = 0#3 then s.enc.wr else s.enc.wr + 1#5) ∧
      t.enc.len.toNat = 1 + (5 * s.enc.n.toNat + 7) / 8 ∧
      t.enc.buf.read? 0 = some (BitVec.ofNat 8 s.enc.n.toNat) ∧
      (s.enc.nbits ≠ 0#3 → t.enc.buf.read? s.enc.wr.toNat =
        some (BitVec.ofNat 8 (s.enc.acc.toNat * 2 ^ (8 - s.enc.nbits.toNat)))) ∧
      (∀ a, a ≠ 0 → (s.enc.nbits = 0#3 ∨ a ≠ s.enc.wr.toNat) → t.enc.buf.read? a = s.enc.buf.read? a) ∧
      encErr t.enc = false ∧
      (∀ a : BitVec 5, a < t.enc.len → ∃ b, t.enc.buf.read? a.toNat = some b ∧ encRead t.enc a = (true, b)) ∧
      (∀ a : BitVec 5, ¬ a < t.enc.len → encRead t.enc a = (false, 0x00#8))

/-- R209: `ENC.END` in DONE and in FAULT writes nothing. -/
def Obligations.EncEndOutsideCollectWritesNothing : Prop :=
  ∀ s : State, s.enc.phase ≠ .collect → exec .encEnd s = .next s

/-- The model's choice (notes/assumptions/5.md) for states no step reaches (20_memory.md R63): a command stops exactly
where it would write the buffer above address 17, and no command is ever refused. -/
def Obligations.CommandsStopExactlyOutsideTheBuffer : Prop :=
  (∀ (i : Instr) (s : State) (f : Fault), exec i s = .fault f ↔
    s.enc.phase = .collect ∧ 18 ≤ s.enc.wr.toNat ∧ f = .bufferAddress s.enc.wr.toNat ∧
      ((∃ c, i = .encChar c ∧ s.enc.raw ≠ 27#5 ∧ c ∈ alphabet ∧ 3 ≤ s.enc.nbits.toNat) ∨
        (i = .encEnd ∧ s.enc.nbits ≠ 0#3))) ∧
  (∀ (i : Instr) (s : State) (r : Refusal), exec i s ≠ .refused r)

/-! ## The DEC commands -/

/-- 45_decode_channel.md R231: `DEC.NOP` clears the lanes and writes no other register, in every phase. -/
def Obligations.DecNopClearsTheLanesOnly : Prop :=
  (∀ d : Byte, decodeWord .dec (0b00#2 ++ d) = .decNop) ∧
  ∀ s : State, exec .decNop s =
    .next { s with dec := { s.dec with v0 := false, c0 := 0x00#8, v1 := false, c1 := 0x00#8 } }

/-- R232: `DEC.START` writes every register of the channel with its reset value, in every phase; a second one changes
nothing. -/
def Obligations.DecStartClearsTheChannel : Prop :=
  (∀ d : Byte, decodeWord .dec (0b01#2 ++ d) = .decStart) ∧
  ∀ s : State, ∃ t, exec .decStart s = .next t ∧
    t = { s with dec := { phase := .len, n := 0#8, i := 0#8, acc := 0#4, nbits := 0#3,
                          v0 := false, c0 := 0x00#8, v1 := false, c1 := 0x00#8 } } ∧
    t.dec = State.reset.dec ∧ exec .decStart t = .next t

/-- 42_length_codec.md R174: the first byte is taken as it stands, 0..255, as the window count; nothing is emitted. -/
def Obligations.FirstByteIsTheLengthByte : Prop :=
  ∀ (s : State) (b : Byte), s.dec.phase = .len →
    exec (.decByte b) s = .next { s with dec := { s.dec with
      phase := .data, n := b, i := 0#8, v0 := false, c0 := 0x00#8, v1 := false, c1 := 0x00#8 } }

/-- R234, last branch: in DATA with no window owed, and in DONE, a byte is ignored; only the lanes are cleared. -/
def Obligations.ByteIsIgnoredWhenNoWindowIsOwed : Prop :=
  ∀ (s : State) (b : Byte), (s.dec.phase = .data ∧ ¬ s.dec.i < s.dec.n) ∨ s.dec.phase = .done →
    exec (.decByte b) s =
      .next { s with dec := { s.dec with v0 := false, c0 := 0x00#8, v1 := false, c1 := 0x00#8 } }

/-- R234 with `UNPACK.LOAD` (43_bit_unpack_decoder.md R182) and R236, in plain arithmetic: `x` is the pending bits followed
by the 8 bits of the byte. Its top 5 bits are the first window, the next 5 the second where 2 or more bits were pending and
two windows are owed; a window below 29 shows its alphabet code on its own lane, any other leaves its lane empty; the rest
of `x` becomes the residue, dropped when the last window has been read. -/
def Obligations.DataByteReadsOneOrTwoWindows : Prop :=
  ∀ (s : State) (b : Byte), s.dec.phase = .data → s.dec.i < s.dec.n → s.dec.nbits.toNat ≤ 4 →
    s.dec.acc.toNat < 2 ^ s.dec.nbits.toNat →
    let x := s.dec.acc.toNat * 256 + b.toNat
    let w0 := x / 2 ^ (s.dec.nbits.toNat + 3)
    let w1 := x / 2 ^ (s.dec.nbits.toNat - 2) % 32
    w0 < 32 ∧
    exec (.decByte b) s = .next { s with dec :=
      if 2 ≤ s.dec.nbits.toNat ∧ s.dec.i.toNat + 1 < s.dec.n.toNat then
        { phase := .data, n := s.dec.n, i := s.dec.i + 2#8,
          acc := if s.dec.i + 2#8 = s.dec.n then 0#4 else BitVec.ofNat 4 (x % 2 ^ (s.dec.nbits.toNat - 2)),
          nbits := if s.dec.i + 2#8 = s.dec.n then 0#3 else BitVec.ofNat 3 (s.dec.nbits.toNat - 2),
          v0 := decide (w0 < 29), c0 := alphabet.getD w0 0x00#8,
          v1 := decide (w1 < 29), c1 := alphabet.getD w1 0x00#8 }
      else
        { phase := .data, n := s.dec.n, i := s.dec.i + 1#8,
          acc := if s.dec.i + 1#8 = s.dec.n then 0#4 else BitVec.ofNat 4 (x % 2 ^ (s.dec.nbits.toNat + 3)),
          nbits := if s.dec.i + 1#8 = s.dec.n then 0#3 else BitVec.ofNat 3 (s.dec.nbits.toNat + 3),
          v0 := decide (w0 < 29), c0 := alphabet.getD w0 0x00#8,
          v1 := false, c1 := 0x00#8 } }

/-- R240: `DEC.END` drops the residue and closes the transaction, keeping `dec_n` and `dec_i`, and clears the lanes; in
DONE it writes only the lanes. -/
def Obligations.DecEndClosesTheTransaction : Prop :=
  (∀ d : Byte, decodeWord .dec (0b11#2 ++ d) = .decEnd) ∧
  ∀ s : State,
    (s.dec.phase ≠ .done → exec .decEnd s = .next { s with dec := { s.dec with
      phase := .done, acc := 0#4, nbits := 0#3, v0 := false, c0 := 0x00#8, v1 := false, c1 := 0x00#8 } }) ∧
    (s.dec.phase = .done → exec .decEnd s =
      .next { s with dec := { s.dec with v0 := false, c0 := 0x00#8, v1 := false, c1 := 0x00#8 } })

/-- R236, R23: whatever the state before, after any command of the channel a lane that holds a character holds one of the
29 codes of the alphabet, and an empty lane shows `0x00`. -/
def Obligations.EmittedCodesAreAlphabetCodes : Prop :=
  ∀ (i : Instr) (s t : State), channelOf i = .dec → exec i s = .next t → LanesInv t.dec

/-! ## The step -/

/-- 70_reset_and_hazards.md R290: in a reset step neither channel takes its command, whatever is on the ports; both write
the reset values of R47, `enc_buf` is not written, and a further reset step writes the same. -/
def Obligations.ResetStepWritesTheResetValues : Prop :=
  ∀ s : State, s.ports.rst = true →
    ∃ t, step s = .next t ∧
      t.enc = { phase := .collect, raw := 0#5, n := 0#5, acc := 0#7, nbits := 0#3, wr := 1#5, len := 0#5,
                buf := s.enc.buf } ∧
      t.dec = { phase := .len, n := 0#8, i := 0#8, acc := 0#4, nbits := 0#3, v0 := false, c0 := 0x00#8, v1 := false,
                c1 := 0x00#8 } ∧
      (t.ports.rst = true → ∃ u, step t = .next u ∧ u.enc = t.enc ∧ u.dec = t.dec)

/-- 10_state.md R47, R41: the outputs of every state with both channels cleared, as a reset step leaves them, over any
buffer and at every read address. `State.reset` is one of them, with the empty buffer and the idle ports of the model's own
choice (notes/assumptions/3.md, 4.md). -/
def Obligations.OutputsAfterReset : Prop :=
  (∀ s : State, EncCleared s.enc → s.dec = DecState.cleared →
    (∀ a, encRead s.enc a = (false, 0x00#8)) ∧
    outputs s =
      { encPhase := 0b00#2, encErr := false, encN := 0#5, encLen := 0#5, encRdValid := false, encRdData := 0x00#8,
        decPhase := 0b00#2, decN := 0#8, decI := 0#8, decV0 := false, decC0 := 0x00#8, decV1 := false,
        decC1 := 0x00#8 }) ∧
  (∀ s : State, s.ports.rst = true → ∃ t, step s = .next t ∧ EncCleared t.enc ∧ t.dec = DecState.cleared) ∧
  EncCleared State.reset.enc ∧ State.reset.dec = DecState.cleared

/-- 10_state.md R22, with the phase codes of R24, `enc_err` of R31, the unmodified registers of R32, R35 and R36 and the
read port of 20_memory.md R62: what every output shows, in every state. That the read port is taken at the address driven
now, with the registers as they stand, is the model's reading of R22 and R62 (notes/assumptions/8.md). -/
def Obligations.OutputsShowTheRegisters : Prop :=
  ∀ s : State,
    (outputs s).encPhase = (match s.enc.phase with | .collect => 0b00#2 | .done => 0b01#2 | .fault => 0b10#2) ∧
    ((outputs s).encErr = true ↔ s.enc.phase = .fault) ∧
    (outputs s).encN = s.enc.n ∧ (outputs s).encLen = s.enc.len ∧
    ((outputs s).encRdValid, (outputs s).encRdData) = encRead s.enc s.ports.encRdAddr ∧
    (s.enc.phase = .done → s.ports.encRdAddr < s.enc.len → (outputs s).encRdValid = true ∧
      ∀ b, s.enc.buf.read? s.ports.encRdAddr.toNat = some b → (outputs s).encRdData = b) ∧
    (s.enc.phase ≠ .done ∨ ¬ s.ports.encRdAddr < s.enc.len →
      (outputs s).encRdValid = false ∧ (outputs s).encRdData = 0x00#8) ∧
    (outputs s).decPhase = (match s.dec.phase with | .len => 0b00#2 | .data => 0b01#2 | .done => 0b10#2) ∧
    (outputs s).decN = s.dec.n ∧ (outputs s).decI = s.dec.i ∧
    (outputs s).decV0 = s.dec.v0 ∧ (outputs s).decC0 = s.dec.c0 ∧
    (outputs s).decV1 = s.dec.v1 ∧ (outputs s).decC1 = s.dec.c1

/-- 10_state.md R21: with `rst = 0` a step takes the command each channel's ports carry. Three clauses are the model's
choice, not R21's: that the host's next sample then comes from `script` (notes/assumptions/2.md), that it is idle once the
script is used up (notes/assumptions/3.md), and that a step whose ENC command stops at the buffer's end, which no reachable
state does, stops with the same fault (notes/assumptions/5.md, 8.md). -/
def Obligations.StepRunsTheDecodedCommands : Prop :=
  ∀ s : State, s.ports.rst = false →
    (∀ t u, exec (decodeCommand .enc s.ports.encCmd s.ports.encChar) s = .next t →
      exec (decodeCommand .dec s.ports.decCmd s.ports.decByte) t = .next u →
      step s = .next { u with ports := s.script.headD InPorts.idle, script := s.script.tail }) ∧
    (∀ f, exec (decodeCommand .enc s.ports.encCmd s.ports.encChar) s = .fault f → step s = .fault f)

/-- The host's door (notes/assumptions/1.md, 2.md): where a table word decodes to a command, `withFetchWord` puts exactly
that command on its channel's ports and `NOP` on the other, and the next step takes it: the channel ends as the command
alone leaves it. -/
def Obligations.PlacedWordIsTheNextCommand : Prop :=
  ∀ (s t : State) (nbits w : Nat) (i : Instr), decodeTableWord nbits w = some i → exec i s = .next t →
    (s.withFetchWord nbits w).enc = s.enc ∧ (s.withFetchWord nbits w).dec = s.dec ∧
    (s.withFetchWord nbits w).script = s.script ∧
    ∃ u, step (s.withFetchWord nbits w) = .next u ∧
      (channelOf i = .enc → u.enc = t.enc ∧
        u.dec = { s.dec with v0 := false, c0 := 0x00#8, v1 := false, c1 := 0x00#8 }) ∧
      (channelOf i = .dec → u.enc = s.enc ∧ u.dec = t.dec)

/-- 20_memory.md R73, 60_exceptions.md R265 (d): the two channels' commands of a step do not interact: in either order they
give the same outcome. -/
def Obligations.ChannelCommandsCommute : Prop :=
  ∀ (i j : Instr) (s : State), channelOf i = .enc → channelOf j = .dec →
    (match exec i s with | .next t => exec j t | o => o) = (match exec j s with | .next t => exec i t | o => o)

/-- 10_state.md R20, R21: neither channel reads anything of the other: two runs with the same ENC registers and the same
ENC ports end with the same ENC registers, whatever the DEC side holds and is given; and the same with the sides
exchanged. -/
def Obligations.NeitherChannelReadsTheOther : Prop :=
  ∀ (s₁ s₂ t₁ t₂ : State) (ps₁ ps₂ : List InPorts),
    steps ps₁.length (drive ps₁ s₁) = .next t₁ → steps ps₂.length (drive ps₂ s₂) = .next t₂ →
    (s₁.enc = s₂.enc → ps₁.map encSide = ps₂.map encSide → t₁.enc = t₂.enc) ∧
    (s₁.dec = s₂.dec → ps₁.map decSide = ps₂.map decSide → t₁.dec = t₂.dec)

/-- 44_encode_channel.md R215: the ENC channel's whole control flow. -/
def Obligations.EncPhaseTransitions : Prop :=
  ∀ s t : State, step s = .next t → t.enc.phase =
    if s.ports.rst then .collect
    else match encCommandAt s.ports, s.enc.phase with
      | .encStart, _ => .collect
      | .encChar _, .collect => if s.enc.raw = 27#5 then .fault else .collect
      | .encEnd, .collect => .done
      | _, p => p

/-- 45_decode_channel.md R244: the DEC channel's whole control flow. -/
def Obligations.DecPhaseTransitions : Prop :=
  ∀ s t : State, step s = .next t → t.dec.phase =
    if s.ports.rst then .len
    else match decCommandAt s.ports, s.dec.phase with
      | .decStart, _ => .len
      | .decByte _, .len => .data
      | .decEnd, _ => .done
      | _, p => p

/-- 60_exceptions.md R264: FAULT is left by `ENC.START` or reset and by nothing else; both clear the channel over its
buffer; every other command of the channel changes nothing in it, so `InputTooLong` does not nest. -/
def Obligations.OnlyStartOrResetLeavesFault : Prop :=
  ∀ s : State, s.enc.phase = .fault →
    ∃ t, step s = .next t ∧
      (s.ports.rst = true ∨ s.ports.encCmd = 0b01#2 → t.enc = EncState.cleared s.enc.buf) ∧
      (s.ports.rst = false → s.ports.encCmd ≠ 0b01#2 → t.enc = s.enc ∧ encErr t.enc = true)

/-- 60_exceptions.md R260, R261, R265: a step enters FAULT exactly when it is no reset step and takes an `ENC.CHAR` in
COLLECT with `enc_raw = 27`; no command of either channel in any other state raises anything. -/
def Obligations.InputTooLongHasExactlyOneCause : Prop :=
  ∀ s t : State, step s = .next t →
    ((t.enc.phase = .fault ∧ s.enc.phase ≠ .fault) ↔
      (s.ports.rst = false ∧ s.ports.encCmd = 0b10#2 ∧ s.enc.phase = .collect ∧ s.enc.raw = 27#5))

/-- 20_memory.md R74: in COLLECT nothing is readable; the `ENC.END` that closes the transaction makes the whole payload
readable in the step that writes the length byte; `ENC.START`, reset and the fault entry make all of it unreadable in one
step. -/
def Obligations.PayloadIsPublishedAtEnd : Prop :=
  ∀ s t : State, EncInv s.enc → step s = .next t →
    (s.enc.phase = .collect → ∀ a, encRead s.enc a = (false, 0x00#8)) ∧
    (s.ports.rst = false → s.ports.encCmd = 0b11#2 → s.enc.phase = .collect →
      t.enc.buf.read? 0 = some (BitVec.ofNat 8 s.enc.n.toNat) ∧
      t.enc.len.toNat = 1 + (5 * s.enc.n.toNat + 7) / 8 ∧
      ∀ a : BitVec 5, (encRead t.enc a).1 = decide (a < t.enc.len)) ∧
    (s.ports.rst = true ∨ s.ports.encCmd = 0b01#2 ∨
        (s.ports.encCmd = 0b10#2 ∧ s.enc.phase = .collect ∧ s.enc.raw = 27#5) →
      ∀ a, encRead t.enc a = (false, 0x00#8))

/-! ## The read port -/

/-- 20_memory.md R62, 10_state.md R30: in states that keep the invariant the port returns a byte exactly in DONE below
`enc_len`, that byte has been written (never a stale or unwritten one), and no address from 18 up is readable. -/
def Obligations.ReadPortShowsOnlyWrittenBytes : Prop :=
  ∀ (e : EncState) (a : BitVec 5), EncInv e →
    (e.phase = .done → a < e.len → ∃ b, e.buf.read? a.toNat = some b ∧ encRead e a = (true, b)) ∧
    (e.phase ≠ .done ∨ ¬ a < e.len → encRead e a = (false, 0x00#8)) ∧
    (18 ≤ a.toNat → encRead e a = (false, 0x00#8))

/-! ## Invariants and safety -/

/-- 10_state.md section 4: the invariants of R45 and R46 hold after reset. -/
def Obligations.ResetKeepsTheInvariant : Prop := Inv State.reset

/-- 10_state.md section 4, R45 and R46: every step keeps the invariants of both channels, from every state that has
them: the residue, the write pointer and the stored bytes are those of the bit stream of some symbols, a finished payload is
a packed one, the decoder's residue is that of some data bytes, and the buffer keeps its canonical form. -/
def Obligations.EveryStepKeepsTheInvariant : Prop :=
  ∀ s t : State, Inv s → step s = .next t → Inv t

/-- 30_encoding.md R103 ("Nothing traps on a command") and 20_memory.md R63: from every state with the invariant a step
answers a next state, whatever is on the ports. -/
def Obligations.NoStepStops : Prop := ∀ s : State, Inv s → SafeStep s

/-- The two together, over every run: from reset, whatever the host drives and however long, the machine answers a next
state and keeps the invariants. That the host drives idle ports after its samples is the model's choice
(notes/assumptions/2.md, 3.md). -/
def Obligations.EveryRunFromResetIsSafe : Prop :=
  ∀ (ps : List InPorts) (k : Nat), ∃ t, steps k (drive ps State.reset) = .next t ∧ Inv t

/-- 20_memory.md R60, R63: no command changes a byte other than at address 0 (by `ENC.END`) and at the `enc_wr` it finds,
and in states with the invariant that `enc_wr` is between 1 and 17 whenever a byte is written. -/
def Obligations.BufferWritesGoToTheWritePointerOrZero : Prop :=
  ∀ (i : Instr) (s t : State), exec i s = .next t →
    (∀ a, a ≠ 0 → a ≠ s.enc.wr.toNat → t.enc.buf.read? a = s.enc.buf.read? a) ∧
    (i ≠ .encEnd → s.enc.wr.toNat ≠ 0 → t.enc.buf.read? 0 = s.enc.buf.read? 0) ∧
    (EncInv s.enc → t.enc.buf.read? s.enc.wr.toNat ≠ s.enc.buf.read? s.enc.wr.toNat →
      1 ≤ s.enc.wr.toNat ∧ s.enc.wr.toNat ≤ 17)

/-! ## Whole transactions -/

/-- 44_encode_channel.md R217: what an ENC transaction computes, for any buffer left behind by earlier ones, with `ENC.NOP`
anywhere and any DEC traffic beside it. -/
def Obligations.EncTransactionComputesEncode : Prop :=
  ∀ (s : State) (ps : List InPorts) (last : InPorts),
    EncCleared s.enc → (∀ p ∈ ps, EncOpenSample p) → last.rst = false → last.encCmd = 0b11#2 →
    ((encCharsOf ps).length ≤ 27 →
      ∃ t payload, steps (ps.length + 1) (drive (ps ++ [last]) s) = .next t ∧
        encodeRef (encCharsOf ps) = .ok payload ∧
        t.enc.phase = .done ∧ encErr t.enc = false ∧ t.enc.n.toNat = (validSyms (encCharsOf ps)).length ∧
        t.enc.len.toNat = payload.length ∧
        (∀ a : BitVec 5, encRead t.enc a =
          match payload[a.toNat]? with
          | some b => (true, b)
          | none => (false, 0x00#8)) ∧
        encReadAll t.enc = payload ∧
        payload.length = 1 + (5 * t.enc.n.toNat + 7) / 8 ∧ payload.length ≤ 18) ∧
    (28 ≤ (encCharsOf ps).length →
      encodeRef (encCharsOf ps) = .error .inputTooLong ∧
      (∃ t, steps (ps.length + 1) (drive (ps ++ [last]) s) = .next t ∧
        t.enc.phase = .fault ∧ encErr t.enc = true ∧ t.enc.len = 0#5 ∧ ∀ a, encRead t.enc a = (false, 0x00#8)) ∧
      (∀ qs rs, ps = qs ++ rs → 28 ≤ (encCharsOf qs).length →
        ∃ t, steps qs.length (drive (ps ++ [last]) s) = .next t ∧
          t.enc.phase = .fault ∧ encErr t.enc = true ∧ t.enc.len = 0#5 ∧ ∀ a, encRead t.enc a = (false, 0x00#8)))

/-- 45_decode_channel.md R246: what a DEC transaction computes, with `DEC.NOP` anywhere and any ENC traffic beside it. The
invariant on the ENC side only rules out the unreachable states in which that traffic would stop the machine. -/
def Obligations.DecTransactionComputesDecode : Prop :=
  ∀ (s : State) (ps : List InPorts) (last : InPorts),
    s.dec = DecState.cleared → EncInv s.enc → (∀ p ∈ ps, DecOpenSample p) → last.rst = false →
    last.decCmd = 0b11#2 →
    ∃ t, steps (ps.length + 1) (drive (ps ++ [last]) s) = .next t ∧
      laneOutput (ps.length + 1) (drive (ps ++ [last]) s) = decodeRef (decBytesOf ps) ∧
      t.dec.phase = .done ∧
      (∀ cs, (∀ c ∈ cs, c ∈ alphabet) → encodeRef cs = .ok (decBytesOf ps) →
        laneOutput (ps.length + 1) (drive (ps ++ [last]) s) = cs) ∧
      match decBytesOf ps with
      | [] => t.dec.n = 0#8 ∧ t.dec.i = 0#8
      | b :: data => t.dec.n = b ∧ t.dec.i.toNat = min b.toNat (8 * data.length / 5) ∧
        (decodeRef (b :: data)).length ≤ b.toNat

/-- The loop-back of program P4 of 95_test_vectors.md for every identifier: what `ENCODE` leaves in the buffer, read back
and given to `DECODE`, comes out of the lanes as the identifier. The channel that a command does not name takes NOP, the
model's deduction (notes/assumptions/8.md). -/
def Obligations.HardwareRoundTrip : Prop :=
  ∀ (s : State) (cs : List Byte), Inv s → (∀ c ∈ cs, c ∈ alphabet) → cs.length ≤ 27 →
    ∃ t, steps (cs.length + 2) (drive ((encodeCommands cs).map portsOf) s) = .next t ∧
      t.enc.phase = .done ∧
      laneOutput ((encReadAll t.enc).length + 2) (drive ((decodeCommands (encReadAll t.enc)).map portsOf) t) = cs

/-- 10_state.md R48: nothing a transaction leaves behind can change what a later one outputs: from any two states, after a
reset step or the channel's `START` and then the same samples, every output of the channel is the same, at every read
address. -/
def Obligations.TransactionsAreIsolated : Prop :=
  ∀ (s₁ s₂ t₁ t₂ : State) (p : InPorts) (ps : List InPorts),
    steps (ps.length + 1) (drive (p :: ps) s₁) = .next t₁ →
    steps (ps.length + 1) (drive (p :: ps) s₂) = .next t₂ →
    (p.rst = true ∨ p.encCmd = 0b01#2 →
      (∃ u, step (drive (p :: ps) s₁) = .next u ∧ u.enc = { State.reset.enc with buf := s₁.enc.buf }) ∧
      t₁.enc.phase = t₂.enc.phase ∧ encErr t₁.enc = encErr t₂.enc ∧ t₁.enc.n = t₂.enc.n ∧ t₁.enc.len = t₂.enc.len ∧
      ∀ a, encRead t₁.enc a = encRead t₂.enc a) ∧
    (p.rst = true ∨ p.decCmd = 0b01#2 →
      (∃ u, step (drive (p :: ps) s₁) = .next u ∧ u.dec = State.reset.dec) ∧ t₁.dec = t₂.dec)

/-- 30_encoding.md R107: after a reset the leading START of an expansion may be omitted with the same result, for every
state with both channels cleared, whatever bytes earlier transactions left in `enc_buf`; and a reset step from any state
leads to such a state with the host's next sample on the ports. The NOP that the other channel takes beside the START
(notes/assumptions/8.md) and the host's samples in `script` (notes/assumptions/2.md, 3.md) are the model's choice. -/
def Obligations.LeadingStartMayBeOmittedAfterReset : Prop :=
  (∀ (s : State) (ps : List InPorts), EncCleared s.enc → s.dec = DecState.cleared →
    step (drive (portsOf .encStart :: ps) s) = .next (drive ps s) ∧
    step (drive (portsOf .decStart :: ps) s) = .next (drive ps s)) ∧
  (∀ (s : State) (p : InPorts) (ps : List InPorts), p.rst = true →
    ∃ t, step (drive (p :: ps) s) = .next (drive ps t) ∧ EncCleared t.enc ∧ t.dec = DecState.cleared ∧
      t.enc.buf = s.enc.buf)

/-- 30_encoding.md R106: a well-formed line takes one step, with its command on its own channel's ports and `NOP` on the
other; `RESET` takes one step with `rst = 1`; `ENC.READ` takes none. R106 does not say what the other channel takes: its `NOP` is
the model's deduction (notes/assumptions/8.md), and so is what the idle ports of a `RESET` step hold beside `rst`
(notes/assumptions/3.md). -/
def Obligations.LinesTakeOneStepEach : Prop :=
  ∀ l : Line, l.wf = true →
    (∀ i, l.command? = some i → lineSteps l = [portsOf i] ∧ (portsOf i).rst = false ∧
      (channelOf i = .enc → encCommandAt (portsOf i) = i ∧ decCommandAt (portsOf i) = .decNop) ∧
      (channelOf i = .dec → decCommandAt (portsOf i) = i ∧ encCommandAt (portsOf i) = .encNop)) ∧
    (l.command? = none → (l = .reset ∧ lineSteps l = [{ InPorts.idle with rst := true }]) ∨
      (∃ a, l = .encRead a ∧ lineSteps l = []))

/-! ## The reference functions -/

/-- 00_scope.md R17: the round trip, the payload length, the filter, and that Encode does not give back every payload
Decode accepts. -/
def Obligations.DecodeInvertsEncode : Prop :=
  (∀ cs : List Byte, (∀ c ∈ cs, c ∈ alphabet) → cs.length ≤ 27 →
    ∃ payload, encodeRef cs = .ok payload ∧ decodeRef payload = cs ∧
      payload.length = 1 + (5 * cs.length + 7) / 8 ∧ payload.length ≤ 18) ∧
  (∀ cs : List Byte, cs.length ≤ 27 →
    ∃ payload, encodeRef cs = .ok payload ∧ encodeRef (cs.filter fun c => decide (c ∈ alphabet)) = .ok payload ∧
      decodeRef payload = cs.filter fun c => decide (c ∈ alphabet)) ∧
  ∃ payload, encodeRef (decodeRef payload) ≠ .ok payload

/-- 00_scope.md R13, 20_memory.md R68: the data bytes are the bit stream followed by zero bits up to the byte boundary,
fewer than eight. -/
def Obligations.DataBytesAreTheStreamPaddedWithZeros : Prop :=
  ∀ ks : List Sym,
    byteStream (pack5 ks) = symStream ks ++ List.replicate (8 * ((5 * ks.length + 7) / 8) - 5 * ks.length) false ∧
    8 * ((5 * ks.length + 7) / 8) - 5 * ks.length < 8 ∧ (pack5 ks).length = (5 * ks.length + 7) / 8

/-- 20_memory.md R66: bit `k` of symbol `i` is stream bit `p = 5i + (4 - k)`, which is bit `7 - (p mod 8)` of data byte
`p div 8`. -/
def Obligations.SymbolBitPositions : Prop :=
  ∀ (ks : List Sym) (i k : Nat) (w : Sym), ks[i]? = some w → k ≤ 4 →
    ∃ b, (pack5 ks)[(5 * i + (4 - k)) / 8]? = some b ∧
      b.getLsbD (7 - (5 * i + (4 - k)) % 8) = w.getLsbD k

/-- 20_memory.md R68, R69: Decode looks at the first `5n` bits of the data and at nothing after them: payloads that agree
there, whatever their padding bits and excess bytes, decode alike. -/
def Obligations.DecodeLooksAtFirstFiveNBitsOnly : Prop :=
  ∀ (n : Byte) (data data' : List Byte),
    (byteStream data).take (5 * n.toNat) = (byteStream data').take (5 * n.toNat) →
    decodeRef (n :: data) = decodeRef (n :: data')

/-- 00_scope.md R15, 20_memory.md R69: a window is read exactly when it lies below the count and wholly within the data,
and it is the stream's five bits at its place. -/
def Obligations.WindowsAreThoseFullyAvailable : Prop :=
  ∀ (data : List Byte) (n i : Nat),
    (unpack5 data n).length = min n (8 * data.length / 5) ∧
    (unpack5 data n)[i]? =
      if i < n ∧ 5 * i + 5 ≤ 8 * data.length then
        some (BitVec.ofNat 5 (uint (((byteStream data).drop (5 * i)).take 5)))
      else none
end

