-- ==== Sys2Proof/Laws/State.lean ====
section
/-!
SUPPORT. What each named update of the state does to each field: one lemma per field per update, true by rfl.
-/
namespace Sys2Proof.Machine

/-! ## State -/

@[simp] theorem State.setEnc_enc (s : State) (e : EncState) :
    (s.setEnc e).enc = e := rfl

@[simp] theorem State.setEnc_dec (s : State) (e : EncState) :
    (s.setEnc e).dec = s.dec := rfl

@[simp] theorem State.setEnc_ports (s : State) (e : EncState) :
    (s.setEnc e).ports = s.ports := rfl

@[simp] theorem State.setEnc_script (s : State) (e : EncState) :
    (s.setEnc e).script = s.script := rfl

@[simp] theorem State.setDec_enc (s : State) (d : DecState) :
    (s.setDec d).enc = s.enc := rfl

@[simp] theorem State.setDec_dec (s : State) (d : DecState) :
    (s.setDec d).dec = d := rfl

@[simp] theorem State.setDec_ports (s : State) (d : DecState) :
    (s.setDec d).ports = s.ports := rfl

@[simp] theorem State.setDec_script (s : State) (d : DecState) :
    (s.setDec d).script = s.script := rfl

@[simp] theorem State.setHost_enc (s : State) (p : InPorts) (r : List InPorts) :
    (s.setHost p r).enc = s.enc := rfl

@[simp] theorem State.setHost_dec (s : State) (p : InPorts) (r : List InPorts) :
    (s.setHost p r).dec = s.dec := rfl

@[simp] theorem State.setHost_ports (s : State) (p : InPorts) (r : List InPorts) :
    (s.setHost p r).ports = p := rfl

@[simp] theorem State.setHost_script (s : State) (p : InPorts) (r : List InPorts) :
    (s.setHost p r).script = r := rfl


/-! ## EncState -/

@[simp] theorem EncState.setPack_phase (e : EncState) (a : BitVec 7) (b : BitVec 3) (w : BitVec 5) :
    (e.setPack a b w).phase = e.phase := rfl

@[simp] theorem EncState.setPack_raw (e : EncState) (a : BitVec 7) (b : BitVec 3) (w : BitVec 5) :
    (e.setPack a b w).raw = e.raw := rfl

@[simp] theorem EncState.setPack_n (e : EncState) (a : BitVec 7) (b : BitVec 3) (w : BitVec 5) :
    (e.setPack a b w).n = e.n := rfl

@[simp] theorem EncState.setPack_acc (e : EncState) (a : BitVec 7) (b : BitVec 3) (w : BitVec 5) :
    (e.setPack a b w).acc = a := rfl

@[simp] theorem EncState.setPack_nbits (e : EncState) (a : BitVec 7) (b : BitVec 3) (w : BitVec 5) :
    (e.setPack a b w).nbits = b := rfl

@[simp] theorem EncState.setPack_wr (e : EncState) (a : BitVec 7) (b : BitVec 3) (w : BitVec 5) :
    (e.setPack a b w).wr = w := rfl

@[simp] theorem EncState.setPack_len (e : EncState) (a : BitVec 7) (b : BitVec 3) (w : BitVec 5) :
    (e.setPack a b w).len = e.len := rfl

@[simp] theorem EncState.setPack_buf (e : EncState) (a : BitVec 7) (b : BitVec 3) (w : BitVec 5) :
    (e.setPack a b w).buf = e.buf := rfl

@[simp] theorem EncState.setBuf_phase (e : EncState) (m : Memory) :
    (e.setBuf m).phase = e.phase := rfl

@[simp] theorem EncState.setBuf_raw (e : EncState) (m : Memory) :
    (e.setBuf m).raw = e.raw := rfl

@[simp] theorem EncState.setBuf_n (e : EncState) (m : Memory) :
    (e.setBuf m).n = e.n := rfl

@[simp] theorem EncState.setBuf_acc (e : EncState) (m : Memory) :
    (e.setBuf m).acc = e.acc := rfl

@[simp] theorem EncState.setBuf_nbits (e : EncState) (m : Memory) :
    (e.setBuf m).nbits = e.nbits := rfl

@[simp] theorem EncState.setBuf_wr (e : EncState) (m : Memory) :
    (e.setBuf m).wr = e.wr := rfl

@[simp] theorem EncState.setBuf_len (e : EncState) (m : Memory) :
    (e.setBuf m).len = e.len := rfl

@[simp] theorem EncState.setBuf_buf (e : EncState) (m : Memory) :
    (e.setBuf m).buf = m := rfl

@[simp] theorem EncState.cleared_phase (m : Memory) :
    (EncState.cleared m).phase = .collect := rfl

@[simp] theorem EncState.cleared_raw (m : Memory) :
    (EncState.cleared m).raw = 0#5 := rfl

@[simp] theorem EncState.cleared_n (m : Memory) :
    (EncState.cleared m).n = 0#5 := rfl

@[simp] theorem EncState.cleared_acc (m : Memory) :
    (EncState.cleared m).acc = 0#7 := rfl

@[simp] theorem EncState.cleared_nbits (m : Memory) :
    (EncState.cleared m).nbits = 0#3 := rfl

@[simp] theorem EncState.cleared_wr (m : Memory) :
    (EncState.cleared m).wr = 1#5 := rfl

@[simp] theorem EncState.cleared_len (m : Memory) :
    (EncState.cleared m).len = 0#5 := rfl

@[simp] theorem EncState.cleared_buf (m : Memory) :
    (EncState.cleared m).buf = m := rfl


/-! ## DecState -/

@[simp] theorem DecState.setUnpack_phase (d : DecState) (a : BitVec 4) (b : BitVec 3) (j : BitVec 8) :
    (d.setUnpack a b j).phase = d.phase := rfl

@[simp] theorem DecState.setUnpack_n (d : DecState) (a : BitVec 4) (b : BitVec 3) (j : BitVec 8) :
    (d.setUnpack a b j).n = d.n := rfl

@[simp] theorem DecState.setUnpack_i (d : DecState) (a : BitVec 4) (b : BitVec 3) (j : BitVec 8) :
    (d.setUnpack a b j).i = j := rfl

@[simp] theorem DecState.setUnpack_acc (d : DecState) (a : BitVec 4) (b : BitVec 3) (j : BitVec 8) :
    (d.setUnpack a b j).acc = a := rfl

@[simp] theorem DecState.setUnpack_nbits (d : DecState) (a : BitVec 4) (b : BitVec 3) (j : BitVec 8) :
    (d.setUnpack a b j).nbits = b := rfl

@[simp] theorem DecState.setUnpack_v0 (d : DecState) (a : BitVec 4) (b : BitVec 3) (j : BitVec 8) :
    (d.setUnpack a b j).v0 = d.v0 := rfl

@[simp] theorem DecState.setUnpack_c0 (d : DecState) (a : BitVec 4) (b : BitVec 3) (j : BitVec 8) :
    (d.setUnpack a b j).c0 = d.c0 := rfl

@[simp] theorem DecState.setUnpack_v1 (d : DecState) (a : BitVec 4) (b : BitVec 3) (j : BitVec 8) :
    (d.setUnpack a b j).v1 = d.v1 := rfl

@[simp] theorem DecState.setUnpack_c1 (d : DecState) (a : BitVec 4) (b : BitVec 3) (j : BitVec 8) :
    (d.setUnpack a b j).c1 = d.c1 := rfl

@[simp] theorem DecState.setLanes_phase (d : DecState) (v : Bool) (c : Byte) (v' : Bool) (c' : Byte) :
    (d.setLanes v c v' c').phase = d.phase := rfl

@[simp] theorem DecState.setLanes_n (d : DecState) (v : Bool) (c : Byte) (v' : Bool) (c' : Byte) :
    (d.setLanes v c v' c').n = d.n := rfl

@[simp] theorem DecState.setLanes_i (d : DecState) (v : Bool) (c : Byte) (v' : Bool) (c' : Byte) :
    (d.setLanes v c v' c').i = d.i := rfl

@[simp] theorem DecState.setLanes_acc (d : DecState) (v : Bool) (c : Byte) (v' : Bool) (c' : Byte) :
    (d.setLanes v c v' c').acc = d.acc := rfl

@[simp] theorem DecState.setLanes_nbits (d : DecState) (v : Bool) (c : Byte) (v' : Bool) (c' : Byte) :
    (d.setLanes v c v' c').nbits = d.nbits := rfl

@[simp] theorem DecState.setLanes_v0 (d : DecState) (v : Bool) (c : Byte) (v' : Bool) (c' : Byte) :
    (d.setLanes v c v' c').v0 = v := rfl

@[simp] theorem DecState.setLanes_c0 (d : DecState) (v : Bool) (c : Byte) (v' : Bool) (c' : Byte) :
    (d.setLanes v c v' c').c0 = c := rfl

@[simp] theorem DecState.setLanes_v1 (d : DecState) (v : Bool) (c : Byte) (v' : Bool) (c' : Byte) :
    (d.setLanes v c v' c').v1 = v' := rfl

@[simp] theorem DecState.setLanes_c1 (d : DecState) (v : Bool) (c : Byte) (v' : Bool) (c' : Byte) :
    (d.setLanes v c v' c').c1 = c' := rfl

@[simp] theorem DecState.cleared_phase  :
    DecState.cleared.phase = .len := rfl

@[simp] theorem DecState.cleared_n  :
    DecState.cleared.n = 0#8 := rfl

@[simp] theorem DecState.cleared_i  :
    DecState.cleared.i = 0#8 := rfl

@[simp] theorem DecState.cleared_acc  :
    DecState.cleared.acc = 0#4 := rfl

@[simp] theorem DecState.cleared_nbits  :
    DecState.cleared.nbits = 0#3 := rfl

@[simp] theorem DecState.cleared_v0  :
    DecState.cleared.v0 = false := rfl

@[simp] theorem DecState.cleared_c0  :
    DecState.cleared.c0 = 0#8 := rfl

@[simp] theorem DecState.cleared_v1  :
    DecState.cleared.v1 = false := rfl

@[simp] theorem DecState.cleared_c1  :
    DecState.cleared.c1 = 0#8 := rfl

/-! ## Extensionality of the updates -/

@[simp] theorem State.setEnc_self (s : State) : s.setEnc s.enc = s := rfl

@[simp] theorem State.setDec_self (s : State) : s.setDec s.dec = s := rfl

@[simp] theorem State.setHost_self (s : State) : s.setHost s.ports s.script = s := rfl

/-- The channels share no register (10_state.md R20), so their updates commute. -/
theorem State.setEnc_setDec (s : State) (e : EncState) (d : DecState) :
    (s.setEnc e).setDec d = (s.setDec d).setEnc e := rfl

end Sys2Proof.Machine
end

