-- ==== Sys2Proof/Laws/Memory.lean ====
section
/-!
SUPPORT. Laws of the payload buffer (spec/20_memory.md rules R60, R62): read after write, and every memory operation keeps
the canonical form.
-/
namespace Sys2Proof.Machine

theorem Memory.read?_write_same (m : Memory) (a : Nat) (v : Byte) : (Memory.write m a v).read? a = some v := by
  induction m with
  | nil => simp [Memory.write, Memory.read?]
  | cons c m ih =>
    obtain ⟨b, u⟩ := c
    simp only [Memory.write]
    split
    · simp [Memory.read?]
    · split
      · simp [Memory.read?, *]
      · simp [Memory.read?, *]

theorem Memory.read?_write_other (m : Memory) {a b : Nat} (v : Byte) (h : b ≠ a) :
    (Memory.write m a v).read? b = m.read? b := by
  induction m with
  | nil => simp [Memory.write, Memory.read?, h]
  | cons c m ih =>
    obtain ⟨d, u⟩ := c
    simp only [Memory.write]
    split
    · simp [Memory.read?, h]
    · split
      · next he => subst he; simp [Memory.read?, h]
      · simp [Memory.read?, ih]

/-- Reading a buffer after one write, at any address. -/
theorem Memory.read?_write (m : Memory) (a b : Nat) (v : Byte) :
    (Memory.write m a v).read? b = if b = a then some v else m.read? b := by
  split
  · next h => subst h; exact Memory.read?_write_same m b v
  · next h => exact Memory.read?_write_other m v h

/-- The canonical form, one cell unfolded: the first address is below every later one and is a location. -/
theorem Memory.wf_cons (a : Nat) (v : Byte) (m : Memory) :
    Memory.wf ((a, v) :: m) = true ↔
      (∀ c ∈ m.head?, a < c.1) ∧ a < 18 ∧ Memory.wf m = true := by
  cases m with
  | nil => simp [Memory.wf]
  | cons c m => obtain ⟨b, u⟩ := c; simp [Memory.wf, and_assoc]

theorem Memory.head?_write (m : Memory) (a : Nat) (v : Byte) :
    ∀ c ∈ (Memory.write m a v).head?, c.1 = a ∨ ∃ d ∈ m.head?, d.1 = c.1 := by
  cases m with
  | nil => simp [Memory.write]
  | cons c m =>
    obtain ⟨b, u⟩ := c
    simp only [Memory.write]
    split
    · simp
    · split
      · simp
      · simp

/-- A write to a location keeps the canonical form. -/
theorem Memory.wf_write {m : Memory} {a : Nat} (v : Byte) (hm : Memory.wf m = true) (ha : a < 18) :
    Memory.wf (Memory.write m a v) = true := by
  induction m with
  | nil => simpa [Memory.write, Memory.wf] using ha
  | cons c m ih =>
    obtain ⟨b, u⟩ := c
    have hb := (Memory.wf_cons b u m).1 hm
    simp only [Memory.write]
    split
    · next h => exact (Memory.wf_cons a v _).2 ⟨by simpa using h, ha, hm⟩
    · next h =>
      split
      · next he => subst he; exact (Memory.wf_cons _ _ _).2 hb
      · next he =>
        refine (Memory.wf_cons _ _ _).2 ⟨fun c hc => ?_, hb.2.1, ih hb.2.2⟩
        rcases Memory.head?_write m a v c hc with h' | ⟨d, hd, h'⟩
        · omega
        · have := hb.1 d hd; omega

/-- All a buffer write can do: it succeeds exactly at the locations of the buffer. -/
theorem memWrite_cases (a : Nat) (v : Byte) (e : EncState) :
    (a < 18 ∧ memWrite a v e = .ok (e.setBuf (e.buf.write a v))) ∨
      (18 ≤ a ∧ memWrite a v e = .error (.bufferAddress a)) := by
  by_cases h : a < 18
  · exact .inl ⟨h, by simp [memWrite, h]⟩
  · exact .inr ⟨Nat.le_of_not_lt h, by simp [memWrite, h]⟩

theorem memWrite_ok {a : Nat} (v : Byte) (e : EncState) (h : a < 18) :
    memWrite a v e = .ok (e.setBuf (e.buf.write a v)) := by simp [memWrite, h]

theorem memWrite_error {a : Nat} (v : Byte) (e : EncState) (h : 18 ≤ a) :
    memWrite a v e = .error (.bufferAddress a) := by simp [memWrite, Nat.not_lt.2 h]

/-- A buffer write keeps the canonical form. -/
theorem memWrite_wf {a : Nat} {v : Byte} {e e' : EncState} (h : memWrite a v e = .ok e')
    (hw : Memory.wf e.buf = true) : Memory.wf e'.buf = true := by
  rcases memWrite_cases a v e with ⟨ha, he⟩ | ⟨_, he⟩
  · rw [he] at h; cases h; exact Memory.wf_write v hw ha
  · rw [he] at h; cases h

theorem memRead_of_written {a : Nat} {v : Byte} {e : EncState} (h : e.buf.read? a = some v) : memRead a e = v := by
  simp [memRead, h]

theorem reset_memory_wf : Memory.wf State.reset.enc.buf = true := rfl

end Sys2Proof.Machine
end

