-- ==== Sys2Proof/Laws/Ops.lean ====
section
/-!
SUPPORT. One lemma per shared operation that says everything it can do; later proofs cite these instead of unfolding.
-/
namespace Sys2Proof.Machine

/-- `PACK.PUSH` (spec/41_bit_pack_encoder.md R152): no byte with fewer than 3 pending bits; otherwise one byte at
`enc_wr`, or the fault where that is no location. -/
theorem packPush_cases (k : Sym) (e : EncState) :
    (e.nbits.toNat < 3 ∧
      packPush k e = .ok (e.setPack (field (e.acc ++ k) 0 7) (BitVec.ofNat 3 (e.nbits.toNat + 5)) e.wr)) ∨
    (3 ≤ e.nbits.toNat ∧ e.wr.toNat < 18 ∧
      packPush k e = .ok ((e.setBuf (e.buf.write e.wr.toNat (field (e.acc ++ k) (e.nbits.toNat - 3) 8))).setPack
        (lowBits 7 (e.acc ++ k) (e.nbits.toNat - 3)) (BitVec.ofNat 3 (e.nbits.toNat - 3)) (e.wr + 1#5))) ∨
    (3 ≤ e.nbits.toNat ∧ 18 ≤ e.wr.toNat ∧
      packPush k e = .error (.bufferAddress e.wr.toNat)) := by
  by_cases hn : 8 ≤ e.nbits.toNat + 5
  · have hm : e.nbits.toNat + 5 - 8 = e.nbits.toNat - 3 := by omega
    rcases memWrite_cases e.wr.toNat (field (e.acc ++ k) (e.nbits.toNat - 3) 8) e with ⟨ha, he⟩ | ⟨ha, he⟩
    · exact .inr (.inl ⟨by omega, ha, by simp [packPush, hn, hm, he, Except.map]⟩)
    · exact .inr (.inr ⟨by omega, ha, by simp [packPush, hn, hm, he, Except.map]⟩)
  · exact .inl ⟨by omega, by simp [packPush, hn]⟩

/-- `PACK.FLUSH` (R154): nothing to write with no pending bits; otherwise one padded byte at `enc_wr`, or the fault. -/
theorem packFlush_cases (e : EncState) :
    (e.nbits = 0#3 ∧ packFlush e = .ok (e.setPack 0#7 0#3 e.wr)) ∨
    (0#3 < e.nbits ∧ e.wr.toNat < 18 ∧
      packFlush e = .ok ((e.setBuf (e.buf.write e.wr.toNat (e.acc.setWidth 8 <<< (8 - e.nbits.toNat)))).setPack
        0#7 0#3 (e.wr + 1#5))) ∨
    (0#3 < e.nbits ∧ 18 ≤ e.wr.toNat ∧ packFlush e = .error (.bufferAddress e.wr.toNat)) := by
  by_cases hn : 0#3 < e.nbits
  · rcases memWrite_cases e.wr.toNat (e.acc.setWidth 8 <<< (8 - e.nbits.toNat)) e with ⟨ha, he⟩ | ⟨ha, he⟩
    · exact .inr (.inl ⟨hn, ha, by simp [packFlush, hn, he, Except.map]⟩)
    · exact .inr (.inr ⟨hn, ha, by simp [packFlush, hn, he, Except.map]⟩)
  · have h0 : e.nbits = 0#3 := by
      apply BitVec.eq_of_toNat_eq
      have : ¬ (0 < e.nbits.toNat) := by simpa [BitVec.lt_def] using hn
      simpa using Nat.eq_zero_of_not_pos this
    exact .inl ⟨h0, by simp [packFlush, h0]⟩

/-- `LEN.PREPEND` (spec/42_length_codec.md R172) always succeeds: address 0 is a location. -/
theorem lenPrepend_eq (e : EncState) :
    lenPrepend e = .ok { e.setBuf (e.buf.write 0 (e.n.setWidth 8)) with len := e.wr } := by
  simp [lenPrepend, memWrite, Except.map]

/-- `UNPACK.LOAD` (spec/43_bit_unpack_decoder.md R182): two windows exactly when 2 or more bits were pending and two
windows are owed, otherwise one. -/
theorem unpackLoad_cases (b : Byte) (d : DecState) :
    ((2 ≤ d.nbits.toNat ∧ d.i + 1#8 < d.n) ∧
      unpackLoad b d = (unpackKeep (d.acc ++ b) (d.nbits.toNat - 2) (d.i + 1#8 + 1#8) d,
        [field (d.acc ++ b) (d.nbits.toNat + 3) 5, field (d.acc ++ b) (d.nbits.toNat - 2) 5])) ∨
    (¬(2 ≤ d.nbits.toNat ∧ d.i + 1#8 < d.n) ∧
      unpackLoad b d = (unpackKeep (d.acc ++ b) (d.nbits.toNat + 3) (d.i + 1#8) d,
        [field (d.acc ++ b) (d.nbits.toNat + 3) 5])) := by
  have h1 : d.nbits.toNat + 8 - 5 = d.nbits.toNat + 3 := by omega
  have h2 : d.nbits.toNat + 3 - 5 = d.nbits.toNat - 2 := by omega
  have h3 : (5 ≤ d.nbits.toNat + 3) ↔ 2 ≤ d.nbits.toNat := by omega
  by_cases h : 2 ≤ d.nbits.toNat ∧ d.i + 1#8 < d.n
  · exact .inl ⟨h, by simp only [unpackLoad, h1, h2, h3, if_pos h]⟩
  · exact .inr ⟨h, by simp only [unpackLoad, h1, h3, if_neg h]⟩

/-- The end of `UNPACK.LOAD`: the residue is dropped exactly when the last window has been read. -/
theorem unpackKeep_cases (t : BitVec 12) (m : Nat) (j : BitVec 8) (d : DecState) :
    (j = d.n ∧ unpackKeep t m j d = d.setUnpack 0#4 0#3 j) ∨
    (j ≠ d.n ∧ unpackKeep t m j d = d.setUnpack (lowBits 4 t m) (BitVec.ofNat 3 m) j) := by
  by_cases h : j = d.n
  · exact .inl ⟨h, by simp [unpackKeep, h]⟩
  · exact .inr ⟨h, by simp [unpackKeep, h]⟩

/-- The fault entry (spec/60_exceptions.md R262), register by register. -/
theorem raiseInputTooLong_eq (e : EncState) :
    raiseInputTooLong e =
      { phase := .fault, raw := 28#5, n := 0#5, acc := 0#7, nbits := 0#3, wr := 1#5, len := 0#5, buf := e.buf } := rfl

/-- `ENC.START`'s clearing leaves the channel's reset registers over its buffer (spec/44_encode_channel.md R202). -/
theorem clearEnc_eq (e : EncState) : clearEnc e = EncState.cleared e.buf := rfl

/-- `DEC.START`'s clearing leaves the channel's reset registers (spec/45_decode_channel.md R232). -/
theorem clearDec_eq (d : DecState) : clearDec d = DecState.cleared := rfl

/-- A reset step's register writes (spec/10_state.md R47). -/
theorem resetRegisters_eq (s : State) :
    resetRegisters s = { s with enc := EncState.cleared s.enc.buf, dec := DecState.cleared } := rfl

/-! ## The lanes -/

@[simp] theorem writeLanes_nil (d : DecState) : writeLanes [] d = d.setLanes false 0x00#8 false 0x00#8 := rfl

@[simp] theorem writeLanes_one (l : Bool × Byte) (d : DecState) :
    writeLanes [l] d = d.setLanes l.1 l.2 false 0x00#8 := rfl

@[simp] theorem writeLanes_two (l l' : Bool × Byte) (d : DecState) :
    writeLanes [l, l'] d = d.setLanes l.1 l.2 l'.1 l'.2 := rfl

@[simp] theorem laneChars_setLanes (d : DecState) (v v' : Bool) (c c' : Byte) :
    laneChars (d.setLanes v c v' c') = (if v then [c] else []) ++ (if v' then [c'] else []) := rfl

/-! ## The symbol map -/

/-- `MAP.C2S` (spec/40_symbol_map.md R132) as its two outcomes. -/
theorem mapC2S_cases (c : Byte) :
    (cp c = none ∧ mapC2S c = (false, 0#5)) ∨ (∃ k, cp c = some k ∧ mapC2S c = (true, k)) := by
  cases h : cp c with
  | none => exact .inl ⟨rfl, by simp [mapC2S, h]⟩
  | some k => exact .inr ⟨k, rfl, by simp [mapC2S, h]⟩

/-- The outcome of an ENC operation is a next state exactly where the operation succeeds. -/
theorem encOutcome_next {s t : State} {r : Except Fault EncState} :
    encOutcome s r = .next t ↔ ∃ e, r = .ok e ∧ t = s.setEnc e := by
  cases r with
  | ok e => simp [encOutcome, eq_comm]
  | error f => simp [encOutcome]

/-- The read port (spec/20_memory.md R62) as its two outcomes. -/
theorem encRead_cases (e : EncState) (a : BitVec 5) :
    ((e.phase = .done ∧ a < e.len) ∧ encRead e a = (true, memRead a.toNat e)) ∨
    (¬(e.phase = .done ∧ a < e.len) ∧ encRead e a = (false, 0x00#8)) := by
  by_cases h : e.phase = .done ∧ a < e.len
  · exact .inl ⟨h, by simp [encRead, h]⟩
  · exact .inr ⟨h, by simp only [encRead, if_neg h]⟩

/-! ## What the operations leave alone -/

/-- `map` succeeds exactly where its argument does. -/
theorem except_map_ok {α β ε : Type} {f : α → β} {r : Except ε α} {b : β} (h : r.map f = .ok b) :
    ∃ a, r = .ok a ∧ b = f a := by
  cases r with
  | ok a => exact ⟨a, rfl, by cases h; rfl⟩
  | error e => cases h

/-- `bind` succeeds exactly where both parts do. -/
theorem except_bind_ok {α β ε : Type} {f : α → Except ε β} {r : Except ε α} {b : β} (h : r.bind f = .ok b) :
    ∃ a, r = .ok a ∧ f a = .ok b := by
  cases r with
  | ok a => exact ⟨a, rfl, h⟩
  | error e => cases h

/-- `PACK.PUSH` writes its own registers and at most the byte at `enc_wr`. -/
theorem packPush_frame {k : Sym} {e e' : EncState} (h : packPush k e = .ok e') :
    e'.phase = e.phase ∧ e'.raw = e.raw ∧ e'.n = e.n ∧ e'.len = e.len ∧
      (∀ a, a ≠ e.wr.toNat → e'.buf.read? a = e.buf.read? a) ∧
      (Memory.wf e.buf = true → Memory.wf e'.buf = true) := by
  rcases packPush_cases k e with ⟨_, hp⟩ | ⟨_, hw, hp⟩ | ⟨_, _, hp⟩ <;> rw [hp] at h <;> cases h
  · simp
  · exact ⟨rfl, rfl, rfl, rfl, fun a ha => by simpa using Memory.read?_write_other _ _ ha,
      fun hwf => by simpa using Memory.wf_write _ hwf hw⟩

/-- `PACK.FLUSH` empties the residue and writes at most the byte at `enc_wr`. -/
theorem packFlush_frame {e e' : EncState} (h : packFlush e = .ok e') :
    e'.phase = e.phase ∧ e'.raw = e.raw ∧ e'.n = e.n ∧ e'.len = e.len ∧ e'.acc = 0#7 ∧ e'.nbits = 0#3 ∧
      (∀ a, a ≠ e.wr.toNat → e'.buf.read? a = e.buf.read? a) ∧
      (Memory.wf e.buf = true → Memory.wf e'.buf = true) := by
  rcases packFlush_cases e with ⟨_, hp⟩ | ⟨_, hw, hp⟩ | ⟨_, _, hp⟩ <;> rw [hp] at h <;> cases h
  · simp
  · exact ⟨rfl, rfl, rfl, rfl, rfl, rfl, fun a ha => by simpa using Memory.read?_write_other _ _ ha,
      fun hwf => by simpa using Memory.wf_write _ hwf hw⟩

/-- `UNPACK.LOAD` writes its own registers only. -/
theorem unpackLoad_frame (b : Byte) (d : DecState) :
    ∃ acc nbits i, (unpackLoad b d).1 = d.setUnpack acc nbits i := by
  rcases unpackLoad_cases b d with ⟨_, h⟩ | ⟨_, h⟩ <;> rw [h] <;> simp only [unpackKeep] <;> split <;>
    exact ⟨_, _, _, rfl⟩

/-- A lane write writes the lanes only. -/
theorem writeLanes_frame (ls : List (Bool × Byte)) (d : DecState) :
    (writeLanes ls d).phase = d.phase ∧ (writeLanes ls d).n = d.n ∧ (writeLanes ls d).i = d.i ∧
      (writeLanes ls d).acc = d.acc ∧ (writeLanes ls d).nbits = d.nbits := by
  unfold writeLanes
  split <;> simp

end Sys2Proof.Machine
end

