-- ==== Sys2Proof/Laws/PerInstr.lean ====
section
/-!
SUPPORT. Facts about every command as syntax, one lemma per constructor (spec/30_encoding.md rules R100, R101).
-/
namespace Sys2Proof.Laws

/-- Family `EncodesRow`: the command's 10-bit word is one of its own row's, by that row's match and mask, and
taking its two fields apart gives the command code and the data back. -/
def EncodesRow.Statement (i : Instr) : Prop :=
  encodeWord i &&& rowMask = rowMatch i ∧ wordCmd (encodeWord i) = codeOf i ∧ wordData (encodeWord i) = dataOf i

/-- A command code over a data field, taken apart again. -/
theorem word_parts (c : BitVec 2) (d : Byte) :
    (c ++ d : CmdWord) &&& rowMask = c.setWidth 10 <<< 8 ∧ wordCmd (c ++ d) = c ∧ wordData (c ++ d) = d := by
  have bit (i : Nat) : (c ++ d : CmdWord).getLsbD i = if i < 8 then d.getLsbD i else c.getLsbD (i - 8) :=
    BitVec.getLsbD_append
  refine ⟨?_, ?_, ?_⟩ <;> apply BitVec.eq_of_getLsbD_eq <;> intro i hi
  · rw [BitVec.getLsbD_and, bit]
    have : i = 0 ∨ i = 1 ∨ i = 2 ∨ i = 3 ∨ i = 4 ∨ i = 5 ∨ i = 6 ∨ i = 7 ∨ i = 8 ∨ i = 9 := by omega
    rcases this with rfl | rfl | rfl | rfl | rfl | rfl | rfl | rfl | rfl | rfl <;> simp [rowMask]
  · rw [wordCmd, BitVec.getLsbD_extractLsb', bit]; simp [hi]
  · rw [wordData, BitVec.getLsbD_extractLsb', bit]; simp [hi]

theorem EncodesRow.encNop : EncodesRow.Statement .encNop := word_parts _ _

theorem EncodesRow.encStart : EncodesRow.Statement .encStart := word_parts _ _

theorem EncodesRow.encChar (c : Byte) : EncodesRow.Statement (.encChar c) := word_parts _ c

theorem EncodesRow.encEnd : EncodesRow.Statement .encEnd := word_parts _ _

theorem EncodesRow.decNop : EncodesRow.Statement .decNop := word_parts _ _

theorem EncodesRow.decStart : EncodesRow.Statement .decStart := word_parts _ _

theorem EncodesRow.decByte (b : Byte) : EncodesRow.Statement (.decByte b) := word_parts _ b

theorem EncodesRow.decEnd : EncodesRow.Statement .decEnd := word_parts _ _

end Sys2Proof.Laws
end

