-- ==== Sys2Proof/Laws/Step.lean ====
section
/-!
SUPPORT. Everything one command and one step can do, said once: an inversion lemma per command of each channel and one for
the step; later proofs derive frames and invariants from these.
-/
namespace Sys2Proof.Machine
open Sys2Proof

/-- An ENC command that answers a next state writes the ENC channel only. -/
theorem exec_enc_frame {i : Instr} {s t : State} (hi : channelOf i = .enc) (h : exec i s = .next t) :
    t = s.setEnc t.enc := by
  cases i with
  | encNop => simp only [exec, execEncNop] at h; cases h; rfl
  | encStart => simp only [exec, execEncStart] at h; cases h; rfl
  | encChar c =>
    simp only [exec, execEncChar] at h
    split at h
    · split at h
      · cases h; rfl
      · split at h
        · obtain ⟨e, _, rfl⟩ := encOutcome_next.1 h; rfl
        · cases h; rfl
    · cases h; rfl
    · cases h; rfl
  | encEnd =>
    simp only [exec, execEncEnd] at h
    split at h
    · obtain ⟨e, _, rfl⟩ := encOutcome_next.1 h; rfl
    · cases h; rfl
    · cases h; rfl
  | decNop => cases hi
  | decStart => cases hi
  | decByte b => cases hi
  | decEnd => cases hi

/-- What a DEC command makes of the channel's registers, as a function of them alone. -/
def decAfter (i : Instr) (d : DecState) : DecState :=
  match i with
  | .decStart => DecState.cleared
  | .decByte b =>
    match d.phase with
    | .len => writeLanes [] (lenExtract b d)
    | .data =>
      if d.i < d.n then writeLanes ((unpackLoad b d).2.map mapS2C) (unpackLoad b d).1 else writeLanes [] d
    | .done => writeLanes [] d
  | .decEnd =>
    match d.phase with
    | .len => writeLanes [] { unpackDrop d with phase := .done }
    | .data => writeLanes [] { unpackDrop d with phase := .done }
    | .done => writeLanes [] d
  | _ => writeLanes [] d

/-- A DEC command always answers a next state and writes the DEC channel only (spec/45_decode_channel.md R247). -/
theorem exec_dec_next {i : Instr} (s : State) (hi : channelOf i = .dec) :
    exec i s = .next (s.setDec (decAfter i s.dec)) := by
  cases i with
  | encNop => cases hi
  | encStart => cases hi
  | encChar c => cases hi
  | encEnd => cases hi
  | decNop => rfl
  | decStart => rfl
  | decByte b =>
    simp only [exec, execDecByte, decAfter]
    cases hp : s.dec.phase with
    | len => rfl
    | data => by_cases hlt : s.dec.i < s.dec.n <;> simp [hlt]
    | done => rfl
  | decEnd =>
    simp only [exec, execDecEnd, decAfter]
    cases s.dec.phase <;> rfl

/-- What an ENC command makes of the channel's registers, as a function of them alone. -/
def encAfter (i : Instr) (e : EncState) : Except Fault EncState :=
  match i with
  | .encStart => .ok (EncState.cleared e.buf)
  | .encChar c =>
    match e.phase with
    | .collect =>
      if e.raw = 27#5 then .ok (raiseInputTooLong e)
      else
        match mapC2S c with
        | (true, k) => (packPush k e).map fun e' => { e' with raw := e.raw + 1#5, n := e.n + 1#5 }
        | (false, _) => .ok { e with raw := e.raw + 1#5 }
    | .done => .ok e
    | .fault => .ok e
  | .encEnd =>
    match e.phase with
    | .collect => ((packFlush e).bind lenPrepend).map fun e' => { e' with phase := .done }
    | .done => .ok e
    | .fault => .ok e
  | _ => .ok e

/-- An ENC command is its effect on the channel's registers. -/
theorem exec_enc_eq {i : Instr} (s : State) (hi : channelOf i = .enc) :
    exec i s = encOutcome s (encAfter i s.enc) := by
  cases i with
  | encNop => rfl
  | encStart => rfl
  | encChar c =>
    simp only [exec, execEncChar, encAfter]
    cases s.enc.phase with
    | collect =>
      by_cases h : s.enc.raw = 27#5
      · simp [h, encOutcome]
      · simp only [if_neg h]
        rcases mapC2S_cases c with ⟨_, hc⟩ | ⟨k, _, hc⟩
        · rw [hc]; rfl
        · rw [hc]
    | done => rfl
    | fault => rfl
  | encEnd =>
    simp only [exec, execEncEnd, encAfter]
    cases s.enc.phase <;> rfl
  | decNop => cases hi
  | decStart => cases hi
  | decByte b => cases hi
  | decEnd => cases hi

theorem channelOf_decodeCommand (ch : Channel) (cmd : BitVec 2) (data : Byte) :
    channelOf (decodeCommand ch cmd data) = ch := by
  cases ch <;> simp only [decodeCommand] <;> split <;> try split
  all_goals first | rfl | (split <;> rfl)

@[simp] theorem channelOf_encCommandAt (p : InPorts) : channelOf (encCommandAt p) = .enc :=
  channelOf_decodeCommand _ _ _

@[simp] theorem channelOf_decCommandAt (p : InPorts) : channelOf (decCommandAt p) = .dec :=
  channelOf_decodeCommand _ _ _

/-- A step (spec/10_state.md R21) as a function of the sampled ports and of each channel's registers. -/
theorem step_eq (s : State) : step s =
    if s.ports.rst then .next (hostAdvance (resetRegisters s))
    else match encAfter (encCommandAt s.ports) s.enc with
      | .ok e => .next (hostAdvance ((s.setEnc e).setDec (decAfter (decCommandAt s.ports) s.dec)))
      | .error f => .fault f := by
  simp only [step, exec_enc_eq s (channelOf_encCommandAt s.ports)]
  cases encAfter (encCommandAt s.ports) s.enc with
  | ok e => simp only [encOutcome, exec_dec_next (s.setEnc e) (channelOf_decCommandAt s.ports), State.setEnc_dec]
  | error f => rfl

/-- All a step can do: the reset writes; or both channels' commands, each on its own registers; or the fault of the ENC
channel's buffer write. -/
theorem step_cases (s : State) :
    (s.ports.rst = true ∧ step s = .next (hostAdvance (resetRegisters s))) ∨
    (s.ports.rst = false ∧ ∃ e, encAfter (encCommandAt s.ports) s.enc = .ok e ∧
      step s = .next (hostAdvance ((s.setEnc e).setDec (decAfter (decCommandAt s.ports) s.dec)))) ∨
    (s.ports.rst = false ∧ ∃ f, encAfter (encCommandAt s.ports) s.enc = .error f ∧ step s = .fault f) := by
  rw [step_eq]
  cases s.ports.rst with
  | true => exact .inl ⟨rfl, rfl⟩
  | false =>
    cases encAfter (encCommandAt s.ports) s.enc with
    | ok e => exact .inr (.inl ⟨rfl, e, rfl, rfl⟩)
    | error f => exact .inr (.inr ⟨rfl, f, rfl, rfl⟩)

/-- A step's next state, field by field. -/
theorem step_next {s t : State} (h : step s = .next t) :
    (s.ports.rst = true ∧ t.enc = EncState.cleared s.enc.buf ∧ t.dec = DecState.cleared) ∨
    (s.ports.rst = false ∧ encAfter (encCommandAt s.ports) s.enc = .ok t.enc ∧
      t.dec = decAfter (decCommandAt s.ports) s.dec) := by
  rcases step_cases s with ⟨hr, hs⟩ | ⟨hr, e, he, hs⟩ | ⟨_, f, _, hs⟩ <;> rw [hs] at h <;> cases h
  · exact .inl ⟨hr, rfl, rfl⟩
  · exact .inr ⟨hr, he, rfl⟩

/-- The fields of a step's next state, whichever way it came about. -/
theorem step_next_host {s t : State} (h : step s = .next t) :
    t.ports = s.script.headD InPorts.idle ∧ t.script = s.script.tail := by
  rcases step_cases s with ⟨_, hs⟩ | ⟨_, e, _, hs⟩ | ⟨_, f, _, hs⟩ <;> rw [hs] at h <;> cases h <;> exact ⟨rfl, rfl⟩

/-! ## What each command can do to its channel -/

/-- `ENC.CHAR` (spec/44_encode_channel.md R204): taken without effect outside COLLECT; the 28th; not in the alphabet;
packed. -/
theorem encAfter_char_cases {c : Byte} {e e' : EncState} (h : encAfter (.encChar c) e = .ok e') :
    (e.phase ≠ .collect ∧ e' = e) ∨
    (e.phase = .collect ∧ e.raw = 27#5 ∧ e' = raiseInputTooLong e) ∨
    (e.phase = .collect ∧ e.raw ≠ 27#5 ∧ cp c = none ∧ e' = { e with raw := e.raw + 1#5 }) ∨
    (e.phase = .collect ∧ e.raw ≠ 27#5 ∧ ∃ k f, cp c = some k ∧ packPush k e = .ok f ∧
      e' = { f with raw := e.raw + 1#5, n := e.n + 1#5 }) := by
  simp only [encAfter] at h
  cases hp : e.phase with
  | collect =>
    simp only [hp] at h
    by_cases hr : e.raw = 27#5
    · simp only [hr, if_true] at h
      cases h
      exact .inr (.inl ⟨rfl, hr, rfl⟩)
    · simp only [if_neg hr] at h
      rcases mapC2S_cases c with ⟨hc, hm⟩ | ⟨k, hc, hm⟩ <;> rw [hm] at h <;> simp only at h
      · cases h
        exact .inr (.inr (.inl ⟨rfl, hr, hc, rfl⟩))
      · obtain ⟨f, hf, rfl⟩ := except_map_ok h
        exact .inr (.inr (.inr ⟨rfl, hr, k, f, hc, hf, rfl⟩))
  | done => simp only [hp] at h; cases h; exact .inl ⟨by simp, rfl⟩
  | fault => simp only [hp] at h; cases h; exact .inl ⟨by simp, rfl⟩

/-- `ENC.END` (R208, R209): taken without effect outside COLLECT; otherwise the flush and the length byte. -/
theorem encAfter_end_cases {e e' : EncState} (h : encAfter .encEnd e = .ok e') :
    (e.phase ≠ .collect ∧ e' = e) ∨
    (e.phase = .collect ∧ ∃ f, packFlush e = .ok f ∧
      e' = { f with buf := f.buf.write 0 (e.n.setWidth 8), len := f.wr, phase := .done }) := by
  simp only [encAfter] at h
  cases hp : e.phase with
  | collect =>
    simp only [hp] at h
    obtain ⟨g, hg, rfl⟩ := except_map_ok h
    obtain ⟨f, hf, hl⟩ := except_bind_ok hg
    rw [lenPrepend_eq] at hl
    cases hl
    refine .inr ⟨rfl, f, hf, ?_⟩
    rw [← (packFlush_frame hf).2.2.1]
    rfl
  | done => simp only [hp] at h; cases h; exact .inl ⟨by simp, rfl⟩
  | fault => simp only [hp] at h; cases h; exact .inl ⟨by simp, rfl⟩

/-- The four codes of `enc_cmd` (spec/30_encoding.md R100). -/
theorem encCmd_cases (p : InPorts) :
    (p.encCmd = 0b00#2 ∧ encCommandAt p = .encNop) ∨ (p.encCmd = 0b01#2 ∧ encCommandAt p = .encStart) ∨
    (p.encCmd = 0b10#2 ∧ encCommandAt p = .encChar p.encChar) ∨
    (p.encCmd = 0b11#2 ∧ encCommandAt p = .encEnd) := by
  have h : ∀ c : BitVec 2, c = 0b00#2 ∨ c = 0b01#2 ∨ c = 0b10#2 ∨ c = 0b11#2 := by decide
  rcases h p.encCmd with h | h | h | h <;> simp [encCommandAt, decodeCommand, h]

/-- The four codes of `dec_cmd` (R100). -/
theorem decCmd_cases (p : InPorts) :
    (p.decCmd = 0b00#2 ∧ decCommandAt p = .decNop) ∨ (p.decCmd = 0b01#2 ∧ decCommandAt p = .decStart) ∨
    (p.decCmd = 0b10#2 ∧ decCommandAt p = .decByte p.decByte) ∨
    (p.decCmd = 0b11#2 ∧ decCommandAt p = .decEnd) := by
  have h : ∀ c : BitVec 2, c = 0b00#2 ∨ c = 0b01#2 ∨ c = 0b10#2 ∨ c = 0b11#2 := by decide
  rcases h p.decCmd with h | h | h | h <;> simp [decCommandAt, decodeCommand, h]

/-! ## Runs of several steps -/

theorem steps_succ_inv {k : Nat} {s t : State} (h : steps (k + 1) s = .next t) :
    ∃ u, step s = .next u ∧ steps k u = .next t := by
  simp only [steps] at h
  cases hs : step s with
  | next u => rw [hs] at h; exact ⟨u, rfl, h⟩
  | fault f => rw [hs] at h; cases h
  | refused r => rw [hs] at h; cases h

theorem steps_zero (s : State) : steps 0 s = .next s := rfl

theorem steps_succ_of_next {s t : State} (k : Nat) (h : step s = .next t) : steps (k + 1) s = steps k t := by
  simp [steps, h]

theorem laneOutput_succ_of_next {s t : State} (k : Nat) (h : step s = .next t) :
    laneOutput (k + 1) s = laneChars t.dec ++ laneOutput k t := by
  simp [laneOutput, h]

/-- `steps` is the host's own run of the machine. -/
theorem steps_eq_run (k : Nat) (s : State) : steps k s = Host.Core.run Sys2Proof.core k s := by
  induction k generalizing s with
  | zero => rfl
  | succ k ih =>
    have hc : Sys2Proof.core.step s = step s := rfl
    simp only [steps, Host.Core.run, hc]
    cases h : step s with
    | next t => exact ih t
    | fault f => rfl
    | refused r => rfl

@[simp] theorem drive_enc (ps : List InPorts) (s : State) : (drive ps s).enc = s.enc := rfl

@[simp] theorem drive_dec (ps : List InPorts) (s : State) : (drive ps s).dec = s.dec := rfl

@[simp] theorem drive_cons_ports (p : InPorts) (ps : List InPorts) (s : State) : (drive (p :: ps) s).ports = p := rfl

@[simp] theorem drive_cons_script (p : InPorts) (ps : List InPorts) (s : State) : (drive (p :: ps) s).script = ps := rfl

/-- After the step that samples `p`, the host drives what follows `p`. -/
theorem step_drive_cons {p : InPorts} {ps : List InPorts} {s t : State} (h : step (drive (p :: ps) s) = .next t) :
    t = drive ps t := by
  obtain ⟨hp, hs⟩ := step_next_host h
  simp only [drive_cons_script] at hp hs
  rw [drive, ← hp, ← hs, State.setHost_self]

end Sys2Proof.Machine
end

