-- ==== Sys2Proof/Laws/Stream.lean ====
section
/-!
SUPPORT. Arithmetic of bit streams and of the slices of the datapaths' register `t` (spec/00_scope.md rules R7, R8, R12):
a stream read as a number, and what cutting and joining streams does to that number.
-/
namespace Sys2Proof.Machine

/-! ## A stream as a number -/

@[simp] theorem uint_nil : uint [] = 0 := rfl

theorem foldl_bits (s : List Bool) (x : Nat) :
    s.foldl (fun x b => 2 * x + b.toNat) x = x * 2 ^ s.length + uint s := by
  induction s generalizing x with
  | nil => simp [uint]
  | cons b s ih =>
    simp only [List.foldl_cons, List.length_cons, uint]
    rw [ih, ih]
    ring

/-- The first bit is the most significant (R8). -/
theorem uint_cons (b : Bool) (s : List Bool) : uint (b :: s) = b.toNat * 2 ^ s.length + uint s := by
  have := foldl_bits s (2 * 0 + b.toNat)
  simpa [uint] using this

/-- Joining two streams: the earlier one is more significant. -/
theorem uint_append (s t : List Bool) : uint (s ++ t) = uint s * 2 ^ t.length + uint t := by
  induction s with
  | nil => simp
  | cons b s ih =>
    rw [List.cons_append, uint_cons, uint_cons, ih, List.length_append, pow_add]
    ring

theorem uint_lt (s : List Bool) : uint s < 2 ^ s.length := by
  induction s with
  | nil => simp
  | cons b s ih =>
    rw [uint_cons, List.length_cons, pow_succ]
    cases b <;> simp <;> omega

/-- The first `i` bits of a stream. -/
theorem uint_take (s : List Bool) (i : Nat) : uint (s.take i) = uint s / 2 ^ (s.length - i) := by
  have hs : uint s = uint (s.take i) * 2 ^ (s.length - i) + uint (s.drop i) := by
    conv_lhs => rw [← List.take_append_drop i s, uint_append, List.length_drop]
  have hd := uint_lt (s.drop i)
  rw [List.length_drop] at hd
  rw [hs, Nat.mul_comm, Nat.mul_add_div (Nat.two_pow_pos _), Nat.div_eq_of_lt hd, Nat.add_zero]

/-- What is left of a stream after its first `i` bits. -/
theorem uint_drop (s : List Bool) (i : Nat) : uint (s.drop i) = uint s % 2 ^ (s.length - i) := by
  have hs : uint s = uint (s.take i) * 2 ^ (s.length - i) + uint (s.drop i) := by
    conv_lhs => rw [← List.take_append_drop i s, uint_append, List.length_drop]
  have hd := uint_lt (s.drop i)
  rw [List.length_drop] at hd
  rw [hs, Nat.mul_comm, Nat.mul_add_mod, Nat.mod_eq_of_lt hd]

/-! ## Symbols and bytes as streams (R12) -/

@[simp] theorem bits5_length (k : Sym) : (bits5 k).length = 5 := rfl

@[simp] theorem bits8_length (b : Byte) : (bits8 b).length = 8 := rfl

theorem uint_bits5 : ∀ k : Sym, uint (bits5 k) = k.toNat := by decide

theorem uint_bits8 : ∀ b : Byte, uint (bits8 b) = b.toNat := by decide +kernel

@[simp] theorem symStream_nil : symStream [] = [] := rfl

theorem symStream_append (ks ks' : List Sym) : symStream (ks ++ ks') = symStream ks ++ symStream ks' := by
  simp [symStream]

theorem symStream_concat (ks : List Sym) (k : Sym) : symStream (ks ++ [k]) = symStream ks ++ bits5 k := by
  simp [symStream]

@[simp] theorem symStream_length (ks : List Sym) : (symStream ks).length = 5 * ks.length := by
  induction ks with
  | nil => rfl
  | cons k ks ih => rw [symStream, List.flatMap_cons, List.length_append, ← symStream, ih]; simp; omega

@[simp] theorem byteStream_nil : byteStream [] = [] := rfl

theorem byteStream_append (bs bs' : List Byte) : byteStream (bs ++ bs') = byteStream bs ++ byteStream bs' := by
  simp [byteStream]

theorem byteStream_concat (bs : List Byte) (b : Byte) : byteStream (bs ++ [b]) = byteStream bs ++ bits8 b := by
  simp [byteStream]

@[simp] theorem byteStream_length (bs : List Byte) : (byteStream bs).length = 8 * bs.length := by
  induction bs with
  | nil => rfl
  | cons b bs ih => rw [byteStream, List.flatMap_cons, List.length_append, ← byteStream, ih]; simp; omega

/-! ## The datapaths' register and its slices (R7) -/

/-- The pending bits followed by a new symbol (41_bit_pack_encoder.md R152). -/
theorem toNat_acc_sym (a : BitVec 7) (k : Sym) : (a ++ k : BitVec 12).toNat = a.toNat * 32 + k.toNat := by
  have h : (a ++ k).toNat = a.toNat <<< 5 ||| k.toNat := BitVec.toNat_append a k
  rw [show (a ++ k : BitVec 12).toNat = (a ++ k).toNat from rfl, h, ← Nat.shiftLeft_add_eq_or_of_lt k.isLt,
    Nat.shiftLeft_eq]

/-- The pending bits followed by a new byte (43_bit_unpack_decoder.md R182). -/
theorem toNat_acc_byte (a : BitVec 4) (b : Byte) : (a ++ b : BitVec 12).toNat = a.toNat * 256 + b.toNat := by
  have h : (a ++ b).toNat = a.toNat <<< 8 ||| b.toNat := BitVec.toNat_append a b
  rw [show (a ++ b : BitVec 12).toNat = (a ++ b).toNat from rfl, h, ← Nat.shiftLeft_add_eq_or_of_lt b.isLt,
    Nat.shiftLeft_eq]

theorem toNat_field (t : BitVec 12) (lo len : Nat) : (field t lo len).toNat = t.toNat / 2 ^ lo % 2 ^ len := by
  simp [field, Nat.shiftRight_eq_div_pow]

theorem toNat_lowBits (w : Nat) (t : BitVec 12) {k : Nat} (h : k ≤ w) :
    (lowBits w t k).toNat = t.toNat % 2 ^ k := by
  rw [lowBits, BitVec.toNat_ofNat]
  exact Nat.mod_eq_of_lt (Nat.lt_of_lt_of_le (Nat.mod_lt _ (Nat.two_pow_pos _)) (Nat.pow_le_pow_right (by omega) h))

/-! ## Cutting streams into bytes and windows (R13, R15) -/

/-- Two streams of one length are equal where their numbers are. -/
theorem uint_inj : ∀ {s t : List Bool}, s.length = t.length → uint s = uint t → s = t := by
  intro s
  induction s with
  | nil => intro t h _; exact (List.length_eq_zero_iff.1 h.symm).symm
  | cons b s ih =>
    intro t h hu
    cases t with
    | nil => simp at h
    | cons c t =>
      simp only [List.length_cons, Nat.add_right_cancel_iff] at h
      rw [uint_cons, uint_cons, h] at hu
      have h1 := uint_lt s
      have h2 := uint_lt t
      rw [h] at h1
      have hbc : b = c := by cases b <;> cases c <;> simp at hu ⊢ <;> omega
      subst hbc
      rw [ih h (by omega)]

theorem bits8_streamByte {s : List Bool} {j : Nat} (h : 8 * j + 8 ≤ s.length) :
    bits8 (streamByte s j) = (s.drop (8 * j)).take 8 := by
  apply uint_inj
  · simp; omega
  · rw [uint_bits8, streamByte, BitVec.toNat_ofNat, Nat.mod_eq_of_lt]
    refine lt_of_lt_of_eq (uint_lt _) ?_
    rw [List.length_take, List.length_drop, Nat.min_eq_left (by omega)]

theorem bits5_streamWindow {s : List Bool} {i : Nat} (h : 5 * i + 5 ≤ s.length) :
    bits5 (streamWindow s i) = (s.drop (5 * i)).take 5 := by
  apply uint_inj
  · simp; omega
  · rw [uint_bits5, streamWindow, BitVec.toNat_ofNat, Nat.mod_eq_of_lt]
    refine lt_of_lt_of_eq (uint_lt _) ?_
    rw [List.length_take, List.length_drop, Nat.min_eq_left (by omega)]

/-- A byte that lies wholly in the first part of a stream does not depend on the rest. -/
theorem streamByte_append (s t : List Bool) {j : Nat} (h : 8 * j + 8 ≤ s.length) :
    streamByte (s ++ t) j = streamByte s j := by
  rw [streamByte, streamByte, List.drop_append_of_le_length (by omega),
    List.take_append_of_le_length (by rw [List.length_drop]; omega)]

/-- A window that lies within the first `m` bits depends on them only. -/
theorem streamWindow_congr {s t : List Bool} {i m : Nat} (h : s.take m = t.take m) (hi : 5 * i + 5 ≤ m) :
    streamWindow s i = streamWindow t i := by
  have key : ∀ r : List Bool, (r.drop (5 * i)).take 5 = ((r.take m).drop (5 * i)).take 5 := by
    intro r
    rw [List.drop_take, List.take_take, Nat.min_eq_left (by omega)]
  rw [streamWindow, streamWindow, key s, key t, h]

/-- Adding a symbol to a stream of which the first `m` bits have been taken. -/
theorem uint_drop_concat_sym (ks : List Sym) (k : Sym) {m : Nat} (hm : m ≤ 5 * ks.length) :
    uint ((symStream (ks ++ [k])).drop m) = uint ((symStream ks).drop m) * 32 + k.toNat := by
  rw [symStream_concat, List.drop_append_of_le_length (by simpa using hm), uint_append, uint_bits5]
  rfl

/-- Adding a byte to a stream of which the first `m` bits have been taken. -/
theorem uint_drop_concat_byte (bs : List Byte) (b : Byte) {m : Nat} (hm : m ≤ 8 * bs.length) :
    uint ((byteStream (bs ++ [b])).drop m) = uint ((byteStream bs).drop m) * 256 + b.toNat := by
  rw [byteStream_concat, List.drop_append_of_le_length (by simpa using hm), uint_append, uint_bits8]
  norm_num

end Sys2Proof.Machine
end

