-- ==== Sys2Proof/Tests/Slice0.lean ====
section
/-!
SUPPORT. Small tests: what WellFormed refuses, words written out from spec/30_encoding.md rules R100 and R101, one step
of each command on the spec's own examples (spec/41 to 45, spec/95_test_vectors.md), and for every obligation with
hypotheses a concrete case that meets them.
-/
namespace Sys2Proof.Tests
open Sys2Proof Sys2Proof.Machine

/-! ## Helpers -/

/-- The outcome is a next state with the property. -/
def nextIs (o : Host.Outcome State Fault Refusal) (p : State → Bool) : Bool :=
  match o with
  | .next t => p t
  | .fault _ => false
  | .refused _ => false

/-- The ENC channel after the characters `m` and `.` (41_bit_pack_encoder.md R152, its example). -/
def encMid : EncState :=
  { phase := .collect, raw := 2#5, n := 2#5, acc := 2#7, nbits := 2#3, wr := 2#5, len := 0#5, buf := [(1, 0x66#8)] }

/-- The DEC channel after the bytes 03 66 (43_bit_unpack_decoder.md R182, its example). -/
def decMid : DecState :=
  { phase := .data, n := 3#8, i := 1#8, acc := 6#4, nbits := 3#3, v0 := true, c0 := 0x6D#8, v1 := false, c1 := 0x00#8 }

/-- Both channels inside a transaction. -/
def mid : State := { enc := encMid, dec := decMid, ports := InPorts.idle, script := [] }

/-- A state with the ENC channel in the given phase, raw count, pending bits and write pointer. -/
def encAt (phase : EncPhase) (raw acc nbits wr : Nat) : State :=
  { mid with enc := { encMid with phase := phase, raw := BitVec.ofNat 5 raw, acc := BitVec.ofNat 7 acc,
                                  nbits := BitVec.ofNat 3 nbits, wr := BitVec.ofNat 5 wr } }

/-- A state with the DEC channel in the given phase, length, position and pending bits. -/
def decAt (phase : DecPhase) (n i acc nbits : Nat) : State :=
  { mid with dec := { decMid with phase := phase, n := BitVec.ofNat 8 n, i := BitVec.ofNat 8 i,
                                  acc := BitVec.ofNat 4 acc, nbits := BitVec.ofNat 3 nbits } }

/-! ## WellFormed -/

theorem test_wf_refuses_char_256 : Line.wf (.encChar 256) = false ∧ Line.wf (.encChar 255) = true := by decide

theorem test_wf_refuses_byte_256 : Line.wf (.decByte 256) = false ∧ Line.wf (.decByte 255) = true := by decide

theorem test_wf_refuses_read_32 : Line.wf (.encRead 32) = false ∧ Line.wf (.encRead 31) = true := by decide

theorem test_ill_formed_line_stands_for_nothing :
    Line.command? (.encChar 256) = none ∧ Line.command? (.decByte 256) = none := by decide

/-! ## Decoding: words written out from R100 and R101 -/

theorem test_word_encNop : decodeTableWord 16 0b00_01101101 = some .encNop := by decide

theorem test_word_encStart : decodeTableWord 16 0b01_11111111 = some .encStart := by decide

theorem test_word_encChar : decodeTableWord 16 0b10_01101101 = some (.encChar 0x6D#8) := by decide

theorem test_word_encEnd : decodeTableWord 16 0b11_00000000 = some .encEnd := by decide

theorem test_word_decNop : decodeWord .dec 0b00_10000001#10 = .decNop := by decide

theorem test_word_decStart : decodeWord .dec 0b01_00000000#10 = .decStart := by decide

theorem test_word_decByte : decodeWord .dec 0b10_10011110#10 = .decByte 0x9E#8 := by decide

theorem test_word_decEnd : decodeWord .dec 0b11_00000001#10 = .decEnd := by decide

/-- The model's channel tag, bit 10 (notes/assumptions/1.md). -/
theorem test_word_tagged : decodeTableWord 16 0b1_10_10011110 = some (.decByte 0x9E#8) := by decide

theorem test_decode_refuses : decode [0x6D#8] = .error .truncated ∧
    decode [0x00#8, 0x08#8] = .error .notACommandWord := by decide

theorem test_encode : encode (.encChar 0x6D#8) = [0x6D#8, 0x02#8] ∧ encode (.decByte 0x66#8) = [0x66#8, 0x06#8] := by
  decide

/-- The word placed as the first instruction after reset is taken by the next step. -/
theorem test_placed_word : nextIs (step (State.reset.withFetchWord 16 0x26D)) (fun t =>
    decide (t.enc.raw = 1#5 ∧ t.enc.n = 1#5 ∧ t.enc.acc = 0b0001100#7 ∧ t.enc.nbits = 5#3 ∧ t.enc.wr = 1#5)) = true := by
  decide

/-! ## One step of each command -/

/-- R201: in DONE with a payload, nothing changes. -/
theorem test_encNop : nextIs (exec .encNop { mid with enc := { encMid with phase := .done, len := 3#5 } })
    (fun t => decide (t.enc.phase = .done ∧ t.enc.len = 3#5 ∧ t.enc.buf = [(1, 0x66#8)])) = true := by decide

/-- R202: from FAULT to the cleared registers; the buffer stays. -/
theorem test_encStart : nextIs (exec .encStart (encAt .fault 28 0 0 1)) (fun t =>
    decide (t.enc = EncState.cleared [(1, 0x66#8)] ∧ t.dec = decMid)) = true := by decide

/-- R152: `m` then `.` stores 0x66 at address 1 and leaves two bits. -/
theorem test_encChar_packs : nextIs (exec (.encChar 0x2E#8)
    { mid with enc := { EncState.cleared [] with raw := 1#5, n := 1#5, acc := 0b0001100#7, nbits := 5#3 } })
    (fun t => decide (t.enc = encMid)) = true := by decide

/-- R205, R206: `@` counts in the raw length only, and as the 28th character raises `InputTooLong`. -/
theorem test_encChar_invalid :
    nextIs (exec (.encChar 0x40#8) mid) (fun t => decide (t.enc = { encMid with raw := 3#5 })) = true ∧
    nextIs (exec (.encChar 0x40#8) (encAt .collect 27 2 2 2)) (fun t =>
      decide (t.enc.phase = .fault ∧ t.enc.raw = 28#5 ∧ t.enc.n = 0#5 ∧ t.enc.wr = 1#5)) = true := by decide

/-- R208: the end of `m.p`. -/
theorem test_encEnd : nextIs (exec .encEnd
    { mid with enc := { encMid with raw := 3#5, n := 3#5, acc := 0b1001111#7, nbits := 7#3 } })
    (fun t => decide (t.enc.buf = [(0, 0x03#8), (1, 0x66#8), (2, 0x9E#8)] ∧ t.enc.wr = 3#5 ∧ t.enc.len = 3#5 ∧
      t.enc.phase = .done ∧ encRead t.enc 2#5 = (true, 0x9E#8) ∧ encRead t.enc 3#5 = (false, 0x00#8))) = true := by
  decide

/-- R208: directly after reset the payload is the one byte 00. -/
theorem test_encEnd_empty : nextIs (exec .encEnd State.reset) (fun t =>
    decide (t.enc.buf = [(0, 0x00#8)] ∧ t.enc.len = 1#5)) = true := by decide

/-- R231. -/
theorem test_decNop : nextIs (exec .decNop mid) (fun t =>
    decide (t.dec = { decMid with v0 := false, c0 := 0x00#8 })) = true := by decide

/-- R232. -/
theorem test_decStart : nextIs (exec .decStart mid) (fun t =>
    decide (t.dec = DecState.cleared ∧ t.enc = encMid)) = true := by decide

/-- R234: the last byte of 03 66 9E gives `.` and `p`. -/
theorem test_decByte : nextIs (exec (.decByte 0x9E#8) mid) (fun t =>
    decide (t.dec = { decMid with i := 3#8, acc := 0#4, nbits := 0#3, c0 := 0x2E#8, v1 := true, c1 := 0x70#8 })) =
    true := by decide

/-- R237: the second data byte of 03 07 C2 gives the windows 31 and 1: lane 0 empty, lane 1 `b`. -/
theorem test_decByte_skips : nextIs (exec (.decByte 0xC2#8) (decAt .data 3 1 7 3)) (fun t =>
    decide (laneChars t.dec = [0x62#8] ∧ t.dec.v0 = false ∧ t.dec.c0 = 0x00#8)) = true := by decide

/-- R240: 03 66 and the end. -/
theorem test_decEnd : nextIs (exec .decEnd mid) (fun t =>
    decide (t.dec = { decMid with phase := .done, acc := 0#4, nbits := 0#3, v0 := false, c0 := 0x00#8 })) = true := by
  decide

/-- R290: `rst` wins over both commands. -/
theorem test_reset : nextIs (step { mid with ports := { portsOfBoth .encEnd .decEnd with rst := true } }) (fun t =>
    decide (t.enc = EncState.cleared [(1, 0x66#8)] ∧ t.dec = DecState.cleared)) = true := by decide

/-! ## Cases that meet the hypotheses of the obligations -/

/-- `encMid` keeps R45, with the symbols 12 and 26. -/
theorem encMid_inv : EncInv encMid := by
  refine ⟨by decide, by decide, by decide, by decide, by decide, by decide, by decide, fun _ => ⟨[12#5, 26#5], ?_⟩,
    nofun, nofun⟩
  refine ⟨by decide, by decide, by decide, by decide, by decide, by decide, fun j hj => ?_, by decide⟩
  have h0 : j = 0 := by
    have hw : encMid.wr.toNat - 1 = 1 := by decide
    omega
  subst h0
  decide

/-- `decMid` keeps R46, with the data byte 0x66. -/
theorem decMid_inv : DecInv decMid :=
  ⟨by decide, by decide, by decide, by decide, by decide, nofun, by decide,
    fun _ _ => ⟨[0x66#8], ⟨by decide, by decide, by decide⟩⟩, nofun⟩

theorem mid_inv : Inv mid := ⟨encMid_inv, decMid_inv, ⟨by decide, by decide⟩⟩

/-- EveryWordMatchesExactlyItsOwnRow: a CHAR word, its own row and another. -/
theorem witness_everyWord : channelOf (.encChar 0x00#8) = .enc ∧
    0x26D#10 &&& 0x300#10 = rowMatch (.encChar 0x00#8) ∧ 0x26D#10 &&& 0x300#10 ≠ rowMatch .encEnd ∧
    codeOf (decodeWord .enc 0x26D#10) = 0b10#2 := by decide

/-- DataPortIsNotReadByOtherCommands: `NOP` on both ports. -/
theorem witness_dataPort : mid.ports.encCmd ≠ 0b10#2 ∧ mid.ports.decCmd ≠ 0b10#2 := by decide

/-- DecoderRefusesExactlyWhatIsNoCommandWord: the boundary between the clauses. -/
theorem witness_decoderRefuses : 8 ≤ (0x08#8).toNat ∧ (0x07#8).toNat < 8 ∧
    decode [0x00#8, 0x08#8] = .error .notACommandWord ∧ decode [0x00#8, 0x07#8] = .ok (.decEnd, []) := by decide

/-- AlphabetIndexAndLookupAgree: both ends of the code points. -/
theorem witness_alphabet : cp 0x61#8 = some 0#5 ∧ (28#5).toNat ≤ 28 ∧ cp 0x2D#8 = some 28#5 ∧ cp 0x4D#8 = none := by
  decide

/-- PackEmissionSchedule, PackUnitComputesPack5: 27 symbols, and 26 with a 27th to come. -/
theorem witness_pack : (List.replicate 27 31#5).length ≤ 27 ∧ (List.replicate 26 31#5).length < 27 ∧
    3 ≤ 5 * (List.replicate 25 31#5).length % 8 ∧ ¬ 3 ≤ 5 * (List.replicate 26 31#5).length % 8 := by decide

/-- EncStartClearsTheChannel: a FAULT state that `ENC.START` leaves. -/
theorem witness_encStart : (encAt .fault 28 0 0 1).enc.phase = .fault ∧
    nextIs (exec .encStart (encAt .fault 28 0 0 1)) (fun u => decide (u.enc.phase ≠ .fault)) = true := by decide

/-- EncCharOutsideCollectWritesNothing, EncEndOutsideCollectWritesNothing: both phases. -/
theorem witness_outsideCollect : (encAt .done 3 0 0 3).enc.phase ≠ .collect ∧
    (encAt .fault 28 0 0 1).enc.phase ≠ .collect := by decide

/-- TwentyEighthCharacterRaisesInputTooLong. -/
theorem witness_twentyEighth : (encAt .collect 27 2 2 2).enc.phase = .collect ∧
    (encAt .collect 27 2 2 2).enc.raw = 27#5 := by decide

/-- InvalidCharacterCountsInRawLengthOnly, at the largest raw length. -/
theorem witness_invalidCharacter : (encAt .collect 26 2 2 2).enc.phase = .collect ∧
    (encAt .collect 26 2 2 2).enc.raw.toNat ≤ 26 ∧ 0x40#8 ∉ alphabet := by decide

/-- ValidCharacterIsPacked, first clause at its boundary: two bits pending. -/
theorem witness_validCharacter_kept : (encAt .collect 26 3 2 2).enc.phase = .collect ∧
    (encAt .collect 26 3 2 2).enc.raw.toNat ≤ 26 ∧ cp 0x2D#8 = some 28#5 ∧
    (encAt .collect 26 3 2 2).enc.acc.toNat < 2 ^ (encAt .collect 26 3 2 2).enc.nbits.toNat ∧
    (encAt .collect 26 3 2 2).enc.nbits.toNat < 3 := by decide

/-- ValidCharacterIsPacked, second clause at its boundaries: three bits pending and the last address. -/
theorem witness_validCharacter_stored : (encAt .collect 0 7 3 17).enc.phase = .collect ∧
    (encAt .collect 0 7 3 17).enc.raw.toNat ≤ 26 ∧ cp 0x61#8 = some 0#5 ∧
    (encAt .collect 0 7 3 17).enc.acc.toNat < 2 ^ (encAt .collect 0 7 3 17).enc.nbits.toNat ∧
    3 ≤ (encAt .collect 0 7 3 17).enc.nbits.toNat ∧ (encAt .collect 0 7 3 17).enc.wr.toNat ≤ 17 := by decide

/-- EncEndFinishesThePayload, with two bits pending. -/
theorem witness_encEnd : EncInv mid.enc ∧ mid.enc.phase = .collect ∧ mid.enc.nbits ≠ 0#3 :=
  ⟨encMid_inv, rfl, by decide⟩

/-- CommandsStopExactlyOutsideTheBuffer: the first address that does not exist, for both commands. -/
theorem witness_commandsStop : (encAt .collect 0 7 3 18).enc.phase = .collect ∧
    18 ≤ (encAt .collect 0 7 3 18).enc.wr.toNat ∧ (encAt .collect 0 7 3 18).enc.raw ≠ 27#5 ∧ 0x61#8 ∈ alphabet ∧
    3 ≤ (encAt .collect 0 7 3 18).enc.nbits.toNat ∧ (encAt .collect 0 7 3 18).enc.nbits ≠ 0#3 := by decide

/-- FirstByteIsTheLengthByte. -/
theorem witness_firstByte : State.reset.dec.phase = .len := by decide

/-- ByteIsIgnoredWhenNoWindowIsOwed: all windows read, and DONE. -/
theorem witness_byteIsIgnored :
    ((decAt .data 3 3 0 0).dec.phase = .data ∧ ¬ (decAt .data 3 3 0 0).dec.i < (decAt .data 3 3 0 0).dec.n) ∧
    (decAt .done 3 1 0 0).dec.phase = .done := by decide

/-- DataByteReadsOneOrTwoWindows: two windows with two bits pending and exactly two windows owed. -/
theorem witness_dataByte_two : (decAt .data 3 1 3 2).dec.phase = .data ∧
    (decAt .data 3 1 3 2).dec.i < (decAt .data 3 1 3 2).dec.n ∧ (decAt .data 3 1 3 2).dec.nbits.toNat ≤ 4 ∧
    (decAt .data 3 1 3 2).dec.acc.toNat < 2 ^ (decAt .data 3 1 3 2).dec.nbits.toNat ∧
    (2 ≤ (decAt .data 3 1 3 2).dec.nbits.toNat ∧
      (decAt .data 3 1 3 2).dec.i.toNat + 1 < (decAt .data 3 1 3 2).dec.n.toNat) := by decide

/-- DataByteReadsOneOrTwoWindows: one window, with four bits pending and one window owed. -/
theorem witness_dataByte_one : (decAt .data 255 254 15 4).dec.phase = .data ∧
    (decAt .data 255 254 15 4).dec.i < (decAt .data 255 254 15 4).dec.n ∧
    (decAt .data 255 254 15 4).dec.nbits.toNat ≤ 4 ∧
    (decAt .data 255 254 15 4).dec.acc.toNat < 2 ^ (decAt .data 255 254 15 4).dec.nbits.toNat ∧
    ¬(2 ≤ (decAt .data 255 254 15 4).dec.nbits.toNat ∧
      (decAt .data 255 254 15 4).dec.i.toNat + 1 < (decAt .data 255 254 15 4).dec.n.toNat) := by decide

/-- DecEndClosesTheTransaction: both clauses. -/
theorem witness_decEnd : mid.dec.phase ≠ .done ∧ (decAt .done 3 1 0 0).dec.phase = .done := by decide

/-- EmittedCodesAreAlphabetCodes: a step that emits. -/
theorem witness_emitted : channelOf (.decByte 0x9E#8) = .dec ∧
    nextIs (exec (.decByte 0x9E#8) mid) (fun t => t.dec.v0 && t.dec.v1) = true := by decide

/-- ResetStepWritesTheResetValues: two reset steps in a row. -/
theorem witness_resetStep :
    (drive [{ InPorts.idle with rst := true }, { InPorts.idle with rst := true }] mid).ports.rst = true ∧
    nextIs (step (drive [{ InPorts.idle with rst := true }, { InPorts.idle with rst := true }] mid))
      (fun t => t.ports.rst) = true := by decide

/-- StepRunsTheDecodedCommands: both commands answer; and the ENC command stops. -/
theorem witness_step :
    (drive [portsOfBoth (.encChar 0x70#8) (.decByte 0x9E#8)] mid).ports.rst = false ∧
    (∃ t u, exec (.encChar 0x70#8) mid = .next t ∧ exec (.decByte 0x9E#8) t = .next u) ∧
    ∃ f, exec .encEnd (encAt .collect 0 7 3 18) = .fault f :=
  ⟨rfl, ⟨_, _, rfl, rfl⟩, ⟨_, rfl⟩⟩

/-- PlacedWordIsTheNextCommand: one word of each channel. -/
theorem witness_placedWord :
    (decodeTableWord 16 0x270 = some (.encChar 0x70#8) ∧ ∃ t, exec (.encChar 0x70#8) mid = .next t) ∧
    (decodeTableWord 16 0x69E = some (.decByte 0x9E#8) ∧ ∃ t, exec (.decByte 0x9E#8) mid = .next t) :=
  ⟨⟨by decide, _, rfl⟩, by decide, _, rfl⟩

/-- ChannelCommandsCommute. -/
theorem witness_commute : channelOf .encEnd = .enc ∧ channelOf (.decByte 0x9E#8) = .dec := by decide

/-- NeitherChannelReadsTheOther: different traffic on the other side, for each side. -/
theorem witness_neither :
    (∃ t₁ t₂, steps 1 (drive [portsOfBoth (.encChar 0x70#8) .decEnd] mid) = .next t₁ ∧
      steps 1 (drive [portsOfBoth (.encChar 0x70#8) .decStart] (decAt .data 3 3 0 0)) = .next t₂) ∧
    mid.enc = (decAt .data 3 3 0 0).enc ∧
    [portsOfBoth (.encChar 0x70#8) .decEnd].map encSide = [portsOfBoth (.encChar 0x70#8) .decStart].map encSide ∧
    mid.dec = (encAt .done 3 0 0 3).dec ∧
    [portsOfBoth .encEnd .decEnd].map decSide = [portsOfBoth .encStart .decEnd].map decSide :=
  ⟨⟨_, _, rfl, rfl⟩, rfl, by decide, rfl, by decide⟩

/-- EncPhaseTransitions, DecPhaseTransitions: a step that moves both phases. -/
theorem witness_phases : ∃ t, step (drive [portsOfBoth .encEnd .decEnd] mid) = .next t := ⟨_, rfl⟩

/-- OnlyStartOrResetLeavesFault: left by `ENC.START` and by reset, kept by `ENC.END`. -/
theorem witness_fault :
    (drive [portsOf .encStart] (encAt .fault 28 0 0 1)).enc.phase = .fault ∧
    (drive [portsOf .encStart] (encAt .fault 28 0 0 1)).ports.encCmd = 0b01#2 ∧
    (drive [{ InPorts.idle with rst := true }] (encAt .fault 28 0 0 1)).ports.rst = true ∧
    (drive [portsOf .encEnd] (encAt .fault 28 0 0 1)).ports.rst = false ∧
    (drive [portsOf .encEnd] (encAt .fault 28 0 0 1)).ports.encCmd ≠ 0b01#2 := by decide

/-- InputTooLongHasExactlyOneCause: a step that raises it. -/
theorem witness_oneCause :
    ∃ t, step (drive [portsOf (.encChar 0x61#8)] (encAt .collect 27 2 2 2)) = .next t ∧ t.enc.phase = .fault :=
  ⟨_, rfl, rfl⟩

/-- PayloadIsPublishedAtEnd: the closing `ENC.END`, and `ENC.START` and reset. -/
theorem witness_published : EncInv mid.enc ∧ mid.enc.phase = .collect ∧
    (∃ t, step (drive [portsOf .encEnd] mid) = .next t) ∧
    (∃ t, step (drive [portsOf .encStart] mid) = .next t) ∧
    (∃ t, step (drive [{ InPorts.idle with rst := true }] mid) = .next t) :=
  ⟨encMid_inv, rfl, ⟨_, rfl⟩, ⟨_, rfl⟩, ⟨_, rfl⟩⟩

/-- PayloadIsPublishedAtEnd: the fault entry, from a state with the invariant. -/
theorem witness_published_fault : EncInv { encMid with raw := 27#5 } ∧
    ∃ t, step (drive [portsOf (.encChar 0x61#8)] (encAt .collect 27 2 2 2)) = .next t ∧
      (encAt .collect 27 2 2 2).enc = { encMid with raw := 27#5 } := by
  obtain ⟨ks, h⟩ := encMid_inv.collect rfl
  exact ⟨⟨by decide, by decide, by decide, by decide, by decide, by decide, by decide,
    fun _ => ⟨ks, by decide, h.2, h.3, h.4, h.5, h.6, h.7, h.8⟩, nofun, nofun⟩, _, rfl, rfl⟩

/-- The DONE state of the payload 00. -/
def encDone : EncState :=
  { phase := .done, raw := 0#5, n := 0#5, acc := 0#7, nbits := 0#3, wr := 1#5, len := 1#5, buf := [(0, 0x00#8)] }

theorem encDone_inv : EncInv encDone := by
  refine ⟨by decide, by decide, by decide, by decide, by decide, by decide, by decide, nofun, fun _ => ⟨[], ?_⟩, nofun⟩
  refine ⟨rfl, rfl, by decide, rfl, by decide, by decide, rfl, by decide, fun j hj => ?_⟩
  exact absurd hj (by simp [encDone])

/-- ReadPortShowsOnlyWrittenBytes: each clause, at the boundaries of the payload and of the buffer. -/
theorem witness_readPort : EncInv encDone ∧ encDone.phase = .done ∧ 0#5 < encDone.len ∧ ¬ 1#5 < encDone.len ∧
    18 ≤ (18#5).toNat := ⟨encDone_inv, rfl, by decide, by decide, by decide⟩

/-- EveryStepKeepsTheInvariant, NoStepStops: a state inside both transactions and a step that works on both channels. -/
theorem witness_everyStep : Inv (drive [portsOfBoth (.encChar 0x70#8) (.decByte 0x9E#8)] mid) ∧
    ∃ t, step (drive [portsOfBoth (.encChar 0x70#8) (.decByte 0x9E#8)] mid) = .next t :=
  ⟨⟨encMid_inv, decMid_inv, mid_inv.lanes⟩, _, rfl⟩

/-- BufferWritesGoToTheWritePointerOrZero: `ENC.END` writes both; `ENC.CHAR` is not `ENC.END`. -/
theorem witness_bufferWrites : EncInv mid.enc ∧ mid.enc.wr.toNat ≠ 0 ∧
    (∃ t, exec .encEnd mid = .next t ∧
      t.enc.buf.read? mid.enc.wr.toNat ≠ mid.enc.buf.read? mid.enc.wr.toNat) ∧
    (∃ t, exec (.encChar 0x70#8) mid = .next t) ∧ Instr.encChar 0x70#8 ≠ .encEnd :=
  ⟨encMid_inv, by decide, ⟨_, rfl, by decide⟩, ⟨_, rfl⟩, by decide⟩

/-- EncTransactionComputesEncode: 27 characters with a `NOP` among them. -/
theorem witness_encTransaction_27 : EncCleared State.reset.enc ∧
    (∀ p ∈ portsOf .encNop :: List.replicate 27 (portsOf (.encChar 0x61#8)), EncOpenSample p) ∧
    (portsOf .encEnd).rst = false ∧ (portsOf .encEnd).encCmd = 0b11#2 ∧
    (encCharsOf (portsOf .encNop :: List.replicate 27 (portsOf (.encChar 0x61#8)))).length ≤ 27 := by
  refine ⟨rfl, fun p hp => ?_, rfl, rfl, by decide⟩
  rcases List.mem_cons.1 hp with rfl | hp
  · exact ⟨rfl, .inl rfl⟩
  · rw [List.eq_of_mem_replicate hp]
    exact ⟨rfl, .inr rfl⟩

/-- EncTransactionComputesEncode: 28 characters. -/
theorem witness_encTransaction_28 :
    (∀ p ∈ List.replicate 28 (portsOf (.encChar 0x40#8)), EncOpenSample p) ∧
    28 ≤ (encCharsOf (List.replicate 28 (portsOf (.encChar 0x40#8)))).length := by
  refine ⟨fun p hp => ?_, by decide⟩
  rw [List.eq_of_mem_replicate hp]
  exact ⟨rfl, .inr rfl⟩

/-- DecTransactionComputesDecode: the payload 03 66 9E of `m.p`, beside an open ENC transaction. -/
theorem witness_decTransaction : ({ mid with dec := DecState.cleared } : State).dec = DecState.cleared ∧
    EncInv ({ mid with dec := DecState.cleared } : State).enc ∧
    (∀ p ∈ [0x03#8, 0x66#8, 0x9E#8].map fun b => portsOf (.decByte b), DecOpenSample p) ∧
    (portsOf .decEnd).rst = false ∧ (portsOf .decEnd).decCmd = 0b11#2 ∧
    (∀ c ∈ [0x6D#8, 0x2E#8, 0x70#8], c ∈ alphabet) ∧
    encodeRef [0x6D#8, 0x2E#8, 0x70#8] =
      .ok (decBytesOf ([0x03#8, 0x66#8, 0x9E#8].map fun b => portsOf (.decByte b))) := by
  refine ⟨rfl, encMid_inv, fun p hp => ?_, rfl, rfl, by decide, by decide⟩
  obtain ⟨b, _, rfl⟩ := List.mem_map.1 hp
  exact ⟨rfl, .inr rfl⟩

/-- HardwareRoundTrip: the identifier `m.p` after a transaction left open. -/
theorem witness_roundTrip : Inv mid ∧ (∀ c ∈ [0x6D#8, 0x2E#8, 0x70#8], c ∈ alphabet) ∧
    [0x6D#8, 0x2E#8, 0x70#8].length ≤ 27 := ⟨mid_inv, by decide, by decide⟩

/-- TransactionsAreIsolated: two different pasts, `START` on both channels, then traffic. -/
theorem witness_isolated : ∃ t₁ t₂,
    steps 2 (drive [portsOfBoth .encStart .decStart, portsOfBoth .encEnd (.decByte 0x03#8)] mid) = .next t₁ ∧
    steps 2 (drive [portsOfBoth .encStart .decStart, portsOfBoth .encEnd (.decByte 0x03#8)]
      (encAt .fault 28 0 0 1)) = .next t₂ ∧
    (portsOfBoth .encStart .decStart).encCmd = 0b01#2 ∧ (portsOfBoth .encStart .decStart).decCmd = 0b01#2 :=
  ⟨_, _, rfl, rfl, rfl, rfl⟩

/-- Both channels cleared over a byte that an earlier transaction left behind. -/
def stale : State := { mid with enc := EncState.cleared [(1, 0x66#8)], dec := DecState.cleared }

/-- OutputsAfterReset, LeadingStartMayBeOmittedAfterReset: a cleared state with a stale buffer, and a reset step. -/
theorem witness_cleared : EncCleared stale.enc ∧ stale.dec = DecState.cleared ∧ stale.enc.buf ≠ [] ∧
    (drive [{ InPorts.idle with rst := true }] mid).ports.rst = true := ⟨rfl, rfl, by decide, rfl⟩

/-- OutputsShowTheRegisters: its clauses on the read port, at the two sides of `enc_len`. -/
theorem witness_outputs :
    ({ mid with enc := encDone } : State).enc.phase = .done ∧
    ({ mid with enc := encDone } : State).ports.encRdAddr < ({ mid with enc := encDone } : State).enc.len ∧
    ({ mid with enc := encDone } : State).enc.buf.read? 0 = some 0x00#8 ∧
    ¬ ({ mid with enc := encDone, ports := { InPorts.idle with encRdAddr := 1#5 } } : State).ports.encRdAddr <
      encDone.len ∧
    mid.enc.phase ≠ .done := by decide

/-- R24, R41: the port codes of DONE and DATA, of FAULT and DONE. -/
theorem test_port_codes :
    (outputs { mid with enc := encDone }).encPhase = 0b01#2 ∧ (outputs mid).decPhase = 0b01#2 ∧
    (outputs (encAt .fault 28 0 0 1)).encPhase = 0b10#2 ∧ (outputs (encAt .fault 28 0 0 1)).encErr = true ∧
    (outputs (decAt .done 3 1 0 0)).decPhase = 0b10#2 := by decide

/-- LinesTakeOneStepEach: a command line of each channel, and the two lines that are no commands. -/
theorem witness_lines : Line.wf (.encChar 0x6D) = true ∧ Line.command? (.encChar 0x6D) = some (.encChar 0x6D#8) ∧
    Line.command? (.decByte 0x66) = some (.decByte 0x66#8) ∧ Line.wf .reset = true ∧ Line.command? .reset = none ∧
    Line.wf (.encRead 31) = true ∧ Line.command? (.encRead 31) = none := by decide

/-- DecodeInvertsEncode: the longest identifier; and `m@p`, which is filtered. -/
theorem witness_inverts : (∀ c ∈ List.replicate 27 0x2D#8, c ∈ alphabet) ∧ (List.replicate 27 0x2D#8).length ≤ 27 ∧
    [0x6D#8, 0x40#8, 0x70#8].length ≤ 27 ∧ 0x40#8 ∉ alphabet := by decide

/-- SymbolBitPositions: the lowest bit of the second symbol of `m.p`. -/
theorem witness_bitPositions : [12#5, 26#5, 15#5][1]? = some 26#5 ∧ 0 ≤ 4 ∧ [12#5, 26#5, 15#5][2]? = some 15#5 ∧
    4 ≤ 4 := by decide

/-- DecodeLooksAtFirstFiveNBitsOnly: the padding bit of `m.p` set and a byte in excess. -/
theorem witness_looksAt : (byteStream [0x66#8, 0x9E#8]).take (5 * (3#8).toNat) =
    (byteStream [0x66#8, 0x9F#8, 0xFF#8]).take (5 * (3#8).toNat) := by decide

/-- A value from spec/95_test_vectors.md: `Encode` and `Decode` of `m.p`. -/
theorem test_reference : encodeRef [0x6D#8, 0x2E#8, 0x70#8] = .ok [0x03#8, 0x66#8, 0x9E#8] ∧
    decodeRef [0x03#8, 0x66#8, 0x9E#8] = [0x6D#8, 0x2E#8, 0x70#8] := by decide

end Sys2Proof.Tests
end

section
/-!
SUPPORT. The symbol map as its two outcomes (spec/00_scope.md R11), and the characters of a list of windows.
-/
namespace Sys2Proof.Machine

/-- A character outside the alphabet has no code point; one inside it has one, which names it back. -/
theorem cp_cases (c : Byte) :
    (c ∉ alphabet ∧ cp c = none) ∨
    (c ∈ alphabet ∧ ∃ k, cp c = some k ∧ k < 29#5 ∧ sym k = some c) := by
  have outside : ∀ c : Byte, c ∉ alphabet → cp c = none := by decide +kernel
  have inside : ∀ c ∈ alphabet, ∃ k, cp c = some k ∧ k < 29#5 ∧ sym k = some c := by decide
  by_cases h : c ∈ alphabet
  · exact .inr ⟨h, inside c h⟩
  · exact .inl ⟨h, outside c h⟩

@[simp] theorem validSyms_nil : validSyms [] = [] := rfl

@[simp] theorem windowChars_nil : windowChars [] = [] := rfl

theorem validSyms_cons_of_none {c : Byte} (cs : List Byte) (h : cp c = none) : validSyms (c :: cs) = validSyms cs :=
  List.filterMap_cons_none h

theorem validSyms_cons_of_some {c : Byte} {k : Sym} (cs : List Byte) (h : cp c = some k) :
    validSyms (c :: cs) = k :: validSyms cs :=
  List.filterMap_cons_some h

theorem windowChars_cons_of_sym {k : Sym} {c : Byte} (ks : List Sym) (hk : k < 29#5) (h : sym k = some c) :
    windowChars (k :: ks) = c :: windowChars ks := by
  rw [windowChars, List.filter_cons_of_pos (by simpa using hk), List.filterMap_cons_some h, windowChars]

/-- Looking the code points of a list up again filters it (R16 after R14). -/
theorem windowChars_validSyms (cs : List Byte) :
    windowChars (validSyms cs) = cs.filter fun c => decide (c ∈ alphabet) := by
  induction cs with
  | nil => rfl
  | cons c cs ih =>
    rcases cp_cases c with ⟨hc, hn⟩ | ⟨hc, k, hk, hlt, hs⟩
    · rw [validSyms_cons_of_none cs hn, List.filter_cons_of_neg (by simpa using hc), ih]
    · rw [validSyms_cons_of_some cs hk, windowChars_cons_of_sym _ hlt hs,
        List.filter_cons_of_pos (by simpa using hc), ih]

/-- The characters the filter drops have no code point (R14). -/
theorem validSyms_filter (cs : List Byte) :
    validSyms (cs.filter fun c => decide (c ∈ alphabet)) = validSyms cs := by
  induction cs with
  | nil => rfl
  | cons c cs ih =>
    rcases cp_cases c with ⟨hc, hn⟩ | ⟨hc, k, hk, -, -⟩
    · rw [List.filter_cons_of_neg (by simpa using hc), validSyms_cons_of_none cs hn, ih]
    · rw [List.filter_cons_of_pos (by simpa using hc), validSyms_cons_of_some _ hk, validSyms_cons_of_some cs hk, ih]

theorem validSyms_length_le (cs : List Byte) : (validSyms cs).length ≤ cs.length :=
  List.length_filterMap_le cp cs

/-- Every character of the alphabet counts (R14). -/
theorem validSyms_length_of_alphabet {cs : List Byte} (h : ∀ c ∈ cs, c ∈ alphabet) :
    (validSyms cs).length = cs.length := by
  induction cs with
  | nil => rfl
  | cons c cs ih =>
    rcases cp_cases c with ⟨hc, -⟩ | ⟨-, k, hk, -, -⟩
    · exact absurd (h c List.mem_cons_self) hc
    · rw [validSyms_cons_of_some cs hk, List.length_cons, List.length_cons,
        ih fun d hd => h d (List.mem_cons_of_mem c hd)]

end Sys2Proof.Machine
end

section
/-!
SUPPORT. Packing and unpacking as cutting of streams (spec/00_scope.md R13, R15): the bytes of `pack5` carry the padded
stream, `unpack5` reads the windows below a bound, and reading back what was packed gives the symbols.
-/
namespace Sys2Proof.Machine

/-! ## Cutting and joining again -/

/-- Joining the first `m` bytes of a stream gives its first `8m` bits back. -/
theorem byteStream_streamBytes {s : List Bool} {m : Nat} (h : 8 * m ≤ s.length) :
    byteStream ((List.range m).map (streamByte s)) = s.take (8 * m) := by
  induction m with
  | zero => rfl
  | succ m ih =>
    rw [List.range_succ, List.map_append, List.map_singleton, byteStream_concat, ih (by omega),
      bits8_streamByte (by omega), Nat.mul_succ, List.take_add]

/-- Joining the first `m` windows of a stream gives its first `5m` bits back. -/
theorem symStream_streamWindows {s : List Bool} {m : Nat} (h : 5 * m ≤ s.length) :
    symStream ((List.range m).map (streamWindow s)) = s.take (5 * m) := by
  induction m with
  | zero => rfl
  | succ m ih =>
    rw [List.range_succ, List.map_append, List.map_singleton, symStream_concat, ih (by omega),
      bits5_streamWindow (by omega), Nat.mul_succ, List.take_add]

theorem bits5_inj {k k' : Sym} (h : bits5 k = bits5 k') : k = k' :=
  BitVec.eq_of_toNat_eq (by rw [← uint_bits5, ← uint_bits5, h])

/-- Symbols have a fixed width, so a stream of them is cut in one way only. -/
theorem symStream_inj : ∀ {ks ks' : List Sym}, ks.length = ks'.length → symStream ks = symStream ks' → ks = ks'
  | [], [], _, _ => rfl
  | k :: ks, k' :: ks', hl, hs => by
    obtain ⟨hk, hks⟩ := List.append_inj (s₁ := bits5 k) (s₂ := bits5 k') hs rfl
    rw [bits5_inj hk, symStream_inj (Nat.succ.inj hl) hks]

/-- The windows of a stream that begins with the bits of symbols are the symbols. -/
theorem streamWindows_symStream_append (ks : List Sym) (t : List Bool) :
    (List.range ks.length).map (streamWindow (symStream ks ++ t)) = ks := by
  refine symStream_inj (by simp) ?_
  rw [symStream_streamWindows (by simp), List.take_left' (symStream_length ks)]

/-! ## `pack5` -/

/-- The zero bits that complete the last byte (R13). -/
def padding (n : Nat) : List Bool := List.replicate (8 * dataBytes n - 5 * n) false

theorem pack5_eq (ks : List Sym) :
    pack5 ks = (List.range (dataBytes ks.length)).map (streamByte (symStream ks ++ padding ks.length)) := rfl

@[simp] theorem pack5_length (ks : List Sym) : (pack5 ks).length = dataBytes ks.length := by
  simp [pack5_eq]

/-- `8 ceil(5n/8)` lies less than eight above `5n` (R13). -/
theorem dataBytes_bounds (n : Nat) : 5 * n ≤ 8 * dataBytes n ∧ 8 * dataBytes n < 5 * n + 8 := by
  unfold dataBytes
  omega

theorem padded_length (ks : List Sym) :
    (symStream ks ++ padding ks.length).length = 8 * dataBytes ks.length := by
  have := (dataBytes_bounds ks.length).1
  rw [List.length_append, symStream_length, padding, List.length_replicate]
  omega

/-- The data bytes carry the stream and then the padding (R13). -/
theorem byteStream_pack5 (ks : List Sym) : byteStream (pack5 ks) = symStream ks ++ padding ks.length := by
  have hlen := padded_length ks
  rw [pack5_eq, byteStream_streamBytes hlen.ge, List.take_of_length_le hlen.le]

/-! ## `unpack5` -/

/-- The loop that stops at the first index not below `m` runs over an initial range (R15's `break`). -/
theorem takeWhile_range_lt (n m : Nat) :
    ((List.range n).takeWhile fun i => decide (i < m)) = List.range (min n m) := by
  induction n with
  | zero => simp
  | succ n ih =>
    rw [List.range_succ, List.takeWhile_append, ih, List.length_range, List.length_range]
    by_cases h : n < m
    · simp [h, Nat.min_eq_left h.le, List.range_succ]
    · have hm : m ≤ n := Nat.not_lt.1 h
      simp +contextual [Nat.min_eq_right hm, Nat.min_eq_right (hm.trans n.le_succ)]

/-- The windows of `unpack5` are those below the count and below `(8 * length) div 5` (R15). -/
theorem unpack5_eq (data : List Byte) (n : Nat) :
    unpack5 data n = (List.range (min n (8 * data.length / 5))).map (streamWindow (byteStream data)) := by
  have hwhole : (fun i => decide (5 * i + 5 ≤ (byteStream data).length)) =
      fun i => decide (i < 8 * data.length / 5) := by
    funext i
    rw [byteStream_length]
    exact decide_eq_decide.2 (by omega)
  rw [← takeWhile_range_lt, ← hwhole]
  rfl

/-- Reading back as many windows as symbols were packed gives the symbols. -/
theorem unpack5_pack5 (ks : List Sym) : unpack5 (pack5 ks) ks.length = ks := by
  have hall : ks.length ≤ 8 * dataBytes ks.length / 5 := by
    have := (dataBytes_bounds ks.length).1
    omega
  rw [unpack5_eq, pack5_length, Nat.min_eq_left hall, byteStream_pack5, streamWindows_symStream_append]

/-! ## `Encode` and `Decode` -/

theorem encodeRef_ok {cs : List Byte} (h : cs.length ≤ 27) :
    encodeRef cs = .ok (BitVec.ofNat 8 (validSyms cs).length :: pack5 (validSyms cs)) :=
  if_neg (Nat.not_lt.2 h)

/-- A payload made of a length byte and the packed symbols decodes to the characters of the symbols: the length byte
holds their number, and where it is 0 there are none. -/
theorem decodeRef_pack5 {ks : List Sym} (h : ks.length < 256) :
    decodeRef (BitVec.ofNat 8 ks.length :: pack5 ks) = windowChars ks := by
  have hn : (BitVec.ofNat 8 ks.length).toNat = ks.length := by
    rw [BitVec.toNat_ofNat, Nat.mod_eq_of_lt h]
  rw [decodeRef, hn, unpack5_pack5]
  split
  next h0 =>
    rw [h0] at hn
    rw [List.length_eq_zero_iff.1 hn.symm, windowChars_nil]
  next => rfl

/-- Encode and then Decode is the filter, on every list Encode accepts (R17). -/
theorem decodeRef_encodeRef {cs payload : List Byte} (hlen : cs.length ≤ 27) (h : encodeRef cs = .ok payload) :
    decodeRef payload = cs.filter fun c => decide (c ∈ alphabet) := by
  rw [encodeRef_ok hlen] at h
  cases h
  have := validSyms_length_le cs
  rw [decodeRef_pack5 (by omega), windowChars_validSyms]

end Sys2Proof.Machine
end

section
/-!
PROOFS. The reference functions of spec/00_scope.md: the statements on packing, unpacking and the round trip.
-/
namespace Sys2Proof.Proofs
open Sys2Proof Sys2Proof.Machine

/-- Settles O51: the bytes of `pack5` join to the padded stream, whose length fixes padding and byte count. -/
theorem dataBytesAreTheStreamPaddedWithZeros : Obligations.DataBytesAreTheStreamPaddedWithZeros := by
  intro ks
  exact ⟨byteStream_pack5 ks, by omega, pack5_length ks⟩

/-- Settles O54: the windows of `unpack5` are those of an initial range of indices, whose bound is both conditions. -/
theorem windowsAreThoseFullyAvailable : Obligations.WindowsAreThoseFullyAvailable := by
  intro data n i
  rw [unpack5_eq]
  refine ⟨by simp, ?_⟩
  have hbound : i < min n (8 * data.length / 5) ↔ i < n ∧ 5 * i + 5 ≤ 8 * data.length := by omega
  rw [List.getElem?_map]
  split
  next h => rw [List.getElem?_range (hbound.2 h)]; rfl
  next h => rw [List.getElem?_eq_none (by rw [List.length_range]; omega)]; rfl

/-- R17, the last sentence: a payload Encode does not give. Its one window is 31, which Decode skips. -/
theorem encodeRef_decodeRef_ne :
    encodeRef (decodeRef [0x01#8, 0xF8#8]) ≠ .ok [0x01#8, 0xF8#8] := by decide

/-- Settles O50: the filter for every list Encode accepts; a list of alphabet characters is its own filter. -/
theorem decodeInvertsEncode : Obligations.DecodeInvertsEncode := by
  refine ⟨fun cs halpha hlen => ?_, fun cs hlen => ?_, _, encodeRef_decodeRef_ne⟩
  · refine ⟨_, encodeRef_ok hlen, ?_, ?_⟩
    · rw [decodeRef_encodeRef hlen (encodeRef_ok hlen), List.filter_eq_self]
      simpa using halpha
    · rw [List.length_cons, pack5_length, validSyms_length_of_alphabet halpha, dataBytes]
      omega
  · refine ⟨_, encodeRef_ok hlen, ?_, decodeRef_encodeRef hlen (encodeRef_ok hlen)⟩
    rw [encodeRef_ok ((List.length_filter_le _ cs).trans hlen), validSyms_filter]

end Sys2Proof.Proofs
end

section
/-!
SUPPORT. What a step takes from the input ports: the reset and the two decoded commands (spec/10_state.md R21), and into a
command the data field only where the code is `CHAR`'s or `BYTE`'s (spec/30_encoding.md R102).
-/
namespace Sys2Proof.Machine
open Sys2Proof

/-- Only the code `0b10` takes the data field into its command (R102). -/
theorem decodeCommand_data_irrelevant (ch : Channel) {cmd : BitVec 2} (hcmd : cmd ≠ 0b10#2) (data data' : Byte) :
    decodeCommand ch cmd data = decodeCommand ch cmd data' := by
  cases ch with
  | enc => simp only [decodeCommand, if_neg hcmd]
  | dec => simp only [decodeCommand, if_neg hcmd]

/-- Ports with the same reset and the same two commands give the same step (R21). -/
theorem step_setHost_congr {s : State} {p : InPorts} (hrst : p.rst = s.ports.rst)
    (henc : encCommandAt p = encCommandAt s.ports) (hdec : decCommandAt p = decCommandAt s.ports) :
    step (s.setHost p s.script) = step s := by
  rw [step_eq, step_eq, State.setHost_ports, hrst, henc, hdec]
  rfl

end Sys2Proof.Machine
end

section
/-!
PROOFS. The encoding of commands (spec/30_encoding.md): the data port.
-/
namespace Sys2Proof.Proofs
open Sys2Proof Sys2Proof.Machine

/-- Settles O3: another value on a data port that is not read leaves both decoded commands and the reset the same. -/
theorem dataPortIsNotReadByOtherCommands : Obligations.DataPortIsNotReadByOtherCommands := by
  intro s x
  constructor
  · intro hcmd
    exact step_setHost_congr rfl (decodeCommand_data_irrelevant .enc hcmd x s.ports.encChar) rfl
  · intro hcmd
    exact step_setHost_congr rfl rfl (decodeCommand_data_irrelevant .dec hcmd x s.ports.decByte)

end Sys2Proof.Proofs
end

section
/-!
SUPPORT. The hits of the symbol map (spec/40_symbol_map.md R132, R134) in terms of `cp` and `sym`, and `cp` and `sym` as
inverses of each other (spec/00_scope.md R11).
-/
namespace Sys2Proof.Machine
open Sys2Proof

/-- `MAP.C2S` hits exactly where the character has a code point, and gives that code point (R132). -/
theorem mapC2S_eq_hit_iff {c : Byte} {k : Sym} : mapC2S c = (true, k) ↔ cp c = some k := by
  rcases mapC2S_cases c with ⟨hcp, hmap⟩ | ⟨k', hcp, hmap⟩
  · simp [hcp, hmap]
  · simp [hcp, hmap]

/-- The table has a character exactly at the windows below `ALPHABET_SIZE` (R37). -/
theorem sym_isSome_iff {k : Sym} : (sym k).isSome ↔ k < 29#5 := by
  have hlen : alphabet.length = 29 := rfl
  simp [sym, hlen, BitVec.lt_def]

/-- `MAP.S2C` hits exactly where the window names a symbol, and gives its character: the range check passes every window
that is in the table (R134). -/
theorem mapS2C_eq_hit_iff {k : Sym} {c : Byte} : mapS2C k = (true, c) ↔ sym k = some c := by
  by_cases hk : k < 29#5
  · obtain ⟨c', hc'⟩ := Option.isSome_iff_exists.1 (sym_isSome_iff.2 hk)
    simp [mapS2C, hk, hc']
  · have hnone : sym k = none := Option.not_isSome_iff_eq_none.1 (mt sym_isSome_iff.1 hk)
    simp [mapS2C, hk, hnone]

/-- The closed form of R92 gives each of the 29 table entries back its index. -/
theorem cp_of_sym {k : Sym} {c : Byte} (h : sym k = some c) : cp c = some k := by
  have table : ∀ k : Sym, ∀ c ∈ sym k, cp c = some k := by decide
  exact table k c h

/-- `cp` and `sym` are inverse (R11). -/
theorem sym_eq_some_iff {k : Sym} {c : Byte} : sym k = some c ↔ cp c = some k := by
  refine ⟨cp_of_sym, fun h => ?_⟩
  rcases cp_cases c with ⟨_, hnone⟩ | ⟨_, k', hk', _, hsym⟩
  · simp [hnone] at h
  · rwa [← Option.some.inj (hk'.symm.trans h)]

end Sys2Proof.Machine
end

section
/-!
PROOFS. The symbol map (spec/40_symbol_map.md): its two directions.
-/
namespace Sys2Proof.Proofs
open Sys2Proof Sys2Proof.Machine

/-- Settles O7: the hits of the two directions are those of `sym` and of `cp`, which are inverse. -/
theorem symbolMapDirectionsAreInverseOnHits : Obligations.SymbolMapDirectionsAreInverseOnHits := by
  intro c k
  calc mapS2C k = (true, c) ↔ sym k = some c := mapS2C_eq_hit_iff
    _ ↔ cp c = some k := sym_eq_some_iff
    _ ↔ mapC2S c = (true, k) := mapC2S_eq_hit_iff.symm

end Sys2Proof.Proofs
end

section
/-!
SUPPORT. `PACK.PUSH` (spec/41_bit_pack_encoder.md R152) as plain arithmetic on the number `32 * enc_acc + k`, which is the
pending bits followed by the new symbol, and `ENC.CHAR` of a valid character as that push and two counters
(spec/44_encode_channel.md R204).
-/
namespace Sys2Proof.Machine
open Sys2Proof

/-- A slice of the packer's register `t` as a quotient of the number it holds. -/
theorem field_acc_sym (a : BitVec 7) (k : Sym) (lo len : Nat) :
    field (a ++ k) lo len = BitVec.ofNat len ((a.toNat * 32 + k.toNat) / 2 ^ lo) := by
  apply BitVec.eq_of_toNat_eq
  rw [toNat_field, toNat_acc_sym, BitVec.toNat_ofNat]

/-- The low bits of the packer's register `t` as a remainder of the number it holds. -/
theorem lowBits_acc_sym (w : Nat) (a : BitVec 7) (k : Sym) (m : Nat) :
    lowBits w (a ++ k) m = BitVec.ofNat w ((a.toNat * 32 + k.toNat) % 2 ^ m) := by
  rw [lowBits, toNat_acc_sym]

/-- A symbol after `m` pending bits makes `m + 5` of them. -/
theorem acc_sym_lt {x m : Nat} (k : Sym) (h : x < 2 ^ m) : x * 32 + k.toNat < 2 ^ (m + 5) := by
  have hk : k.toNat < 32 := k.isLt
  rw [Nat.pow_add]
  omega

/-- The eight oldest of `m + 5` bits make a byte. -/
theorem oldest_byte_lt {x m : Nat} (hm : 3 ≤ m) (h : x < 2 ^ (m + 5)) : x / 2 ^ (m - 3) < 256 := by
  have hsplit : 2 ^ (m + 5) = 2 ^ (m - 3) * 256 := by
    rw [show m + 5 = (m - 3) + 8 by omega, Nat.pow_add]
  exact Nat.div_lt_of_lt_mul (hsplit ▸ h)

/-- `PACK.PUSH` with fewer than three bits pending stores nothing (R152). -/
theorem packPush_kept (k : Sym) {e : EncState} (hn : e.nbits.toNat < 3) :
    packPush k e = .ok (e.setPack (BitVec.ofNat 7 (e.acc.toNat * 32 + k.toNat))
      (BitVec.ofNat 3 (e.nbits.toNat + 5)) e.wr) := by
  rcases packPush_cases k e with ⟨_, hpush⟩ | ⟨hge, _⟩ | ⟨hge, _⟩
  · rw [hpush, field_acc_sym, Nat.pow_zero, Nat.div_one]
  · omega
  · omega

/-- `PACK.PUSH` with three or more bits pending stores the eight oldest bits and keeps the rest (R152). -/
theorem packPush_stored (k : Sym) {e : EncState} (hn : 3 ≤ e.nbits.toNat) (hw : e.wr.toNat ≤ 17) :
    packPush k e = .ok ((e.setBuf (e.buf.write e.wr.toNat
        (BitVec.ofNat 8 ((e.acc.toNat * 32 + k.toNat) / 2 ^ (e.nbits.toNat - 3))))).setPack
      (BitVec.ofNat 7 ((e.acc.toNat * 32 + k.toNat) % 2 ^ (e.nbits.toNat - 3)))
      (BitVec.ofNat 3 (e.nbits.toNat - 3)) (e.wr + 1#5)) := by
  rcases packPush_cases k e with ⟨hlt, _⟩ | ⟨_, _, hpush⟩ | ⟨_, hstop, _⟩
  · omega
  · rw [hpush, field_acc_sym, lowBits_acc_sym]
  · omega

/-- `ENC.CHAR` of a valid character below the length limit, once its push succeeds: the pushed registers and both counters
incremented (R204). -/
theorem exec_encChar_of_packPush {s : State} {c : Byte} {k : Sym} {e : EncState} (hphase : s.enc.phase = .collect)
    (hraw : s.enc.raw.toNat ≤ 26) (hcp : cp c = some k) (hpush : packPush k s.enc = .ok e) :
    exec (.encChar c) s = .next (s.setEnc { e with raw := s.enc.raw + 1#5, n := s.enc.n + 1#5 }) := by
  have hlimit : s.enc.raw ≠ 27#5 := by
    intro h
    simp [h] at hraw
  rw [exec_enc_eq s rfl]
  simp only [encAfter, hphase, if_neg hlimit, mapC2S_eq_hit_iff.2 hcp, hpush]
  rfl

end Sys2Proof.Machine
end

section
/-!
PROOFS. The bit packer (spec/41_bit_pack_encoder.md): `PACK.PUSH` inside `ENC.CHAR`.
-/
namespace Sys2Proof.Proofs
open Sys2Proof Sys2Proof.Machine

/-- Settles O16: the two branches of `PACK.PUSH`, each carried through `ENC.CHAR`; the frame is read after write. -/
theorem validCharacterIsPacked : Obligations.ValidCharacterIsPacked := by
  intro s c k hphase hraw hcp hacc x
  have hx : x < 2 ^ (s.enc.nbits.toNat + 5) := acc_sym_lt k hacc
  constructor
  · intro hfew
    exact ⟨hx, exec_encChar_of_packPush hphase hraw hcp (packPush_kept k hfew)⟩
  · intro hmany hwr
    refine ⟨oldest_byte_lt hmany hx, _,
      exec_encChar_of_packPush hphase hraw hcp (packPush_stored k hmany hwr), rfl, ?_, fun a ha => ?_⟩
    · exact Memory.read?_write_same _ _ _
    · exact Memory.read?_write_other _ _ ha

end Sys2Proof.Proofs
end

section
/-!
SUPPORT. `DEC.BYTE` in phase LEN (spec/45_decode_channel.md R234) as `LEN.EXTRACT` (spec/42_length_codec.md R174).
-/
namespace Sys2Proof.Machine
open Sys2Proof

/-- `DEC.BYTE` in phase LEN is `LEN.EXTRACT` with both lanes cleared (R174, R234). -/
theorem decAfter_byte_of_len (b : Byte) {d : DecState} (hphase : d.phase = .len) :
    decAfter (.decByte b) d = (lenExtract b d).setLanes false 0x00#8 false 0x00#8 := by
  simp only [decAfter, hphase, writeLanes_nil]

end Sys2Proof.Machine
end

section
/-!
PROOFS. The length codec (spec/42_length_codec.md): `LEN.EXTRACT` inside `DEC.BYTE`.
-/
namespace Sys2Proof.Proofs
open Sys2Proof Sys2Proof.Machine

/-- Settles O22: a DEC command writes its channel only, and in phase LEN what it writes is `LEN.EXTRACT`. -/
theorem firstByteIsTheLengthByte : Obligations.FirstByteIsTheLengthByte := by
  intro s b hphase
  calc exec (.decByte b) s = .next (s.setDec (decAfter (.decByte b) s.dec)) := exec_dec_next s rfl
    _ = .next (s.setDec ((lenExtract b s.dec).setLanes false 0x00#8 false 0x00#8)) := by
      rw [decAfter_byte_of_len b hphase]

end Sys2Proof.Proofs
end

section
/-!
SUPPORT. `UNPACK.LOAD` (spec/43_bit_unpack_decoder.md R182) as plain arithmetic on the number `256 * dec_acc + b`, which is
the pending bits followed by the new byte, and `DEC.BYTE` with a window owed as that load and its lanes
(spec/45_decode_channel.md R234, R236).
-/
namespace Sys2Proof.Machine
open Sys2Proof

/-- `MAP.S2C` (spec/40_symbol_map.md R134) as the range check and the table entry; the table has none past the range. -/
theorem mapS2C_eq (w : Sym) : mapS2C w = (decide (w.toNat < 29), alphabet.getD w.toNat 0x00#8) := by
  by_cases hw : w.toNat < 29
  · simp [mapS2C, sym, BitVec.lt_def, hw]
  · have hpast : alphabet.length ≤ w.toNat := Nat.not_lt.1 hw
    simp [mapS2C, BitVec.lt_def, hw, List.getElem?_eq_none hpast]

/-- A window of the unpacker's register `t`, looked up, as a quotient of the number it holds. -/
theorem mapS2C_field_acc_byte (a : BitVec 4) (b : Byte) (lo : Nat) :
    mapS2C (field (a ++ b) lo 5) =
      (decide ((a.toNat * 256 + b.toNat) / 2 ^ lo % 32 < 29),
        alphabet.getD ((a.toNat * 256 + b.toNat) / 2 ^ lo % 32) 0x00#8) := by
  rw [mapS2C_eq, toNat_field, toNat_acc_byte]
  rfl

/-- The residue that a load keeps, as a remainder of the number in `t`; both its registers are 0 after the last window. -/
theorem unpackKeep_acc_byte (b : Byte) (m : Nat) (j : BitVec 8) (d : DecState) :
    unpackKeep (d.acc ++ b) m j d =
      d.setUnpack (if j = d.n then 0#4 else BitVec.ofNat 4 ((d.acc.toNat * 256 + b.toNat) % 2 ^ m))
        (if j = d.n then 0#3 else BitVec.ofNat 3 m) j := by
  rcases unpackKeep_cases (d.acc ++ b) m j d with ⟨hlast, hkeep⟩ | ⟨hmore, hkeep⟩
  · rw [hkeep, if_pos hlast, if_pos hlast]
  · rw [hkeep, if_neg hmore, if_neg hmore, lowBits, toNat_acc_byte]

/-- The five oldest bits of `m` pending bits and a byte make a window. -/
theorem oldest_window_lt {a m : Nat} (b : Byte) (h : a < 2 ^ m) : (a * 256 + b.toNat) / 2 ^ (m + 3) < 32 := by
  have hb : b.toNat < 256 := b.isLt
  refine Nat.div_lt_of_lt_mul ?_
  rw [Nat.pow_add]
  omega

/-- The count of windows read, below `dec_n`, grows by 1 without wrapping. -/
theorem succ_lt_iff_of_lt {i n : BitVec 8} (h : i < n) : i + 1#8 < n ↔ i.toNat + 1 < n.toNat := by
  bv_omega

/-- `DEC.BYTE` in DATA with a window owed is `UNPACK.LOAD`, its windows looked up for the lanes (R234, R236). -/
theorem decAfter_byte_of_owed (b : Byte) {d : DecState} (hphase : d.phase = .data) (howed : d.i < d.n) :
    decAfter (.decByte b) d = writeLanes ((unpackLoad b d).2.map mapS2C) (unpackLoad b d).1 := by
  simp only [decAfter, hphase, if_pos howed]

/-- In DATA, a write of the unpacker's registers and the lanes keeps the phase and `dec_n` and writes the rest. -/
theorem setLanes_setUnpack_of_data {d : DecState} (hphase : d.phase = .data) (acc : BitVec 4) (nbits : BitVec 3)
    (i : BitVec 8) (v0 : Bool) (c0 : Byte) (v1 : Bool) (c1 : Byte) :
    (d.setUnpack acc nbits i).setLanes v0 c0 v1 c1 =
      { phase := .data, n := d.n, i := i, acc := acc, nbits := nbits, v0 := v0, c0 := c0, v1 := v1, c1 := c1 } := by
  rw [← hphase]
  rfl

end Sys2Proof.Machine
end

section
/-!
PROOFS. The bit unpacker (spec/43_bit_unpack_decoder.md): `UNPACK.LOAD` inside `DEC.BYTE`.
-/
namespace Sys2Proof.Proofs
open Sys2Proof Sys2Proof.Machine

/-- Settles O24: the two cases of `UNPACK.LOAD`, each with its residue and its windows as arithmetic; the first window needs
no reduction modulo 32, because the residue lies below `2 ^ dec_nbits`. -/
theorem dataByteReadsOneOrTwoWindows : Obligations.DataByteReadsOneOrTwoWindows := by
  intro s b hphase howed _ hacc x w0 w1
  have hw0 : w0 < 32 := oldest_window_lt b hacc
  have hlane0 : mapS2C (field (s.dec.acc ++ b) (s.dec.nbits.toNat + 3) 5) =
      (decide (w0 < 29), alphabet.getD w0 0x00#8) := by
    rw [mapS2C_field_acc_byte, Nat.mod_eq_of_lt hw0]
  have hlane1 : mapS2C (field (s.dec.acc ++ b) (s.dec.nbits.toNat - 2) 5) =
      (decide (w1 < 29), alphabet.getD w1 0x00#8) := mapS2C_field_acc_byte _ _ _
  refine ⟨hw0, ?_⟩
  rw [exec_dec_next s rfl, decAfter_byte_of_owed b hphase howed]
  have hcases := unpackLoad_cases b s.dec
  rw [succ_lt_iff_of_lt howed] at hcases
  rcases hcases with ⟨htwo, hload⟩ | ⟨hone, hload⟩
  · have hi : s.dec.i + 1#8 + 1#8 = s.dec.i + 2#8 := BitVec.add_assoc _ _ _
    rw [if_pos htwo, hload, hi, unpackKeep_acc_byte, List.map_cons, List.map_cons, List.map_nil, hlane0, hlane1,
      writeLanes_two, setLanes_setUnpack_of_data hphase]
    rfl
  · rw [if_neg hone, hload, unpackKeep_acc_byte, List.map_cons, List.map_nil, hlane0, writeLanes_one,
      setLanes_setUnpack_of_data hphase]
    rfl

end Sys2Proof.Proofs
end

section
/-!
SUPPORT. The ENC commands (spec/44_encode_channel.md R201 to R209) case by case: the words they are decoded from, what they
do outside COLLECT, the two forms of `ENC.CHAR` that pack nothing, and the read port.
-/
namespace Sys2Proof.Machine
open Sys2Proof

/-- A word written as a command code over a data field decodes to the command of the two (R101). -/
theorem decodeWord_append (ch : Channel) (c : BitVec 2) (d : Byte) : decodeWord ch (c ++ d) = decodeCommand ch c d := by
  obtain ⟨_, hcmd, hdata⟩ := Laws.word_parts c d
  rw [decodeWord, hcmd, hdata]

/-! ## Outside COLLECT -/

/-- Outside COLLECT every command but `ENC.START` leaves the channel's registers as they are (R201, R207, R209). -/
theorem encAfter_of_not_collect {i : Instr} {e : EncState} (hphase : e.phase ≠ .collect) (hi : i ≠ .encStart) :
    encAfter i e = .ok e := by
  have hclosed : e.phase = .done ∨ e.phase = .fault := by
    cases hp : e.phase with
    | collect => exact absurd hp hphase
    | done => exact .inl rfl
    | fault => exact .inr rfl
  cases i with
  | encStart => exact absurd rfl hi
  | encChar c => rcases hclosed with hp | hp <;> simp only [encAfter, hp]
  | encEnd => rcases hclosed with hp | hp <;> simp only [encAfter, hp]
  | _ => rfl

/-- Outside COLLECT every ENC command but `ENC.START` is taken and changes nothing. -/
theorem exec_enc_of_not_collect {i : Instr} {s : State} (hchannel : channelOf i = .enc) (hi : i ≠ .encStart)
    (hphase : s.enc.phase ≠ .collect) : exec i s = .next s := by
  rw [exec_enc_eq s hchannel, encAfter_of_not_collect hphase hi]
  rfl

/-- In FAULT every command of either channel but `ENC.START` leaves the ENC channel as it is (R202). -/
theorem exec_enc_eq_of_fault {i : Instr} {s t : State} (hphase : s.enc.phase = .fault) (hi : i ≠ .encStart)
    (h : exec i s = .next t) : t.enc = s.enc := by
  cases hchannel : channelOf i with
  | enc =>
    rw [exec_enc_of_not_collect hchannel hi (by simp [hphase])] at h
    cases h
    rfl
  | dec =>
    rw [exec_dec_next s hchannel] at h
    cases h
    rfl

/-! ## `ENC.START` and the characters that are not packed -/

theorem exec_encStart (s : State) : exec .encStart s = .next (s.setEnc (EncState.cleared s.enc.buf)) :=
  exec_enc_eq s rfl

/-- The length test comes before the filter: the 28th character is the fault entry, whatever it is (R204, R206). -/
theorem exec_encChar_of_limit {s : State} (c : Byte) (hphase : s.enc.phase = .collect) (hraw : s.enc.raw = 27#5) :
    exec (.encChar c) s = .next (s.setEnc (raiseInputTooLong s.enc)) := by
  rw [exec_enc_eq s rfl]
  simp only [encAfter, hphase, if_pos hraw]
  rfl

/-- Below the length limit, a character without a code point only counts (R205). -/
theorem exec_encChar_of_miss {s : State} {c : Byte} (hphase : s.enc.phase = .collect) (hraw : s.enc.raw ≠ 27#5)
    (hmiss : cp c = none) : exec (.encChar c) s = .next (s.setEnc { s.enc with raw := s.enc.raw + 1#5 }) := by
  have hmap : mapC2S c = (false, 0#5) := by simp only [mapC2S, hmiss]
  rw [exec_enc_eq s rfl]
  simp only [encAfter, hphase, if_neg hraw, hmap]
  rfl

theorem cp_eq_none {c : Byte} (h : c ∉ alphabet) : cp c = none := by
  rcases cp_cases c with ⟨_, hnone⟩ | ⟨hmem, _⟩
  · exact hnone
  · exact absurd hmem h

/-! ## The read port -/

/-- Outside DONE no address is readable (spec/20_memory.md R62). -/
theorem encRead_of_not_done {e : EncState} (h : e.phase ≠ .done) (a : BitVec 5) : encRead e a = (false, 0x00#8) :=
  if_neg fun hread => h hread.1

/-- No address from `enc_len` on is readable. -/
theorem encRead_of_not_lt {e : EncState} {a : BitVec 5} (h : ¬ a < e.len) : encRead e a = (false, 0x00#8) :=
  if_neg fun hread => h hread.2

/-- In DONE a written location below `enc_len` reads as what was written. -/
theorem encRead_of_written {e : EncState} {a : BitVec 5} {b : Byte} (hphase : e.phase = .done) (ha : a < e.len)
    (hb : e.buf.read? a.toNat = some b) : encRead e a = (true, b) := by
  rw [encRead, if_pos ⟨hphase, ha⟩, memRead_of_written hb]

end Sys2Proof.Machine
end

section
/-!
SUPPORT. `ENC.END` in COLLECT (spec/44_encode_channel.md R208): the flush of the pending bits as one optional byte
(spec/41_bit_pack_encoder.md R154), the finished channel, and what the invariant of spec/10_state.md R45 says of its length
and its bytes.
-/
namespace Sys2Proof.Machine
open Sys2Proof

/-! ## The flush -/

/-- The last data byte: the pending bits, padded on the right with zeros (R154). -/
def flushByte (e : EncState) : Byte := BitVec.ofNat 8 (e.acc.toNat * 2 ^ (8 - e.nbits.toNat))

/-- `enc_wr` after the flush. -/
def flushWr (e : EncState) : BitVec 5 := if e.nbits = 0#3 then e.wr else e.wr + 1#5

theorem toNat_flushWr_of_pending {e : EncState} (hpending : e.nbits ≠ 0#3) (hwr : e.wr.toNat ≤ 17) :
    (flushWr e).toNat = e.wr.toNat + 1 := by
  rw [flushWr, if_neg hpending]
  bv_omega

/-- The buffer after the flush. -/
def flushBuf (e : EncState) : Memory := if e.nbits = 0#3 then e.buf else e.buf.write e.wr.toNat (flushByte e)

theorem shiftLeft_acc_eq_flushByte (e : EncState) : e.acc.setWidth 8 <<< (8 - e.nbits.toNat) = flushByte e := by
  have hacc : e.acc.toNat < 2 ^ 8 := e.acc.isLt.trans (by decide)
  apply BitVec.eq_of_toNat_eq
  rw [flushByte, BitVec.toNat_shiftLeft, BitVec.toNat_setWidth, BitVec.toNat_ofNat, Nat.shiftLeft_eq,
    Nat.mod_eq_of_lt hacc]

/-- `PACK.FLUSH` succeeds where `enc_wr` is a location of the buffer. -/
theorem packFlush_of_wr_le {e : EncState} (hwr : e.wr.toNat ≤ 17) :
    packFlush e = .ok ((e.setBuf (flushBuf e)).setPack 0#7 0#3 (flushWr e)) := by
  rcases packFlush_cases e with ⟨hempty, hflush⟩ | ⟨hpending, _, hflush⟩ | ⟨_, hstop, _⟩
  · rw [hflush, flushBuf, flushWr, if_pos hempty, if_pos hempty]
    rfl
  · have hpending : e.nbits ≠ 0#3 := by bv_omega
    rw [hflush, flushBuf, flushWr, if_neg hpending, if_neg hpending, shiftLeft_acc_eq_flushByte]
  · omega

theorem flushBuf_read?_wr {e : EncState} (hpending : e.nbits ≠ 0#3) :
    (flushBuf e).read? e.wr.toNat = some (flushByte e) := by
  rw [flushBuf, if_neg hpending, Memory.read?_write_same]

theorem flushBuf_read?_other {e : EncState} {a : Nat} (h : e.nbits = 0#3 ∨ a ≠ e.wr.toNat) :
    (flushBuf e).read? a = e.buf.read? a := by
  unfold flushBuf
  split
  next => rfl
  next hpending => exact Memory.read?_write_other _ _ (h.resolve_left hpending)

/-! ## The finished channel -/

/-- The channel after `ENC.END` in COLLECT (R208): flushed, with the length byte at address 0. -/
def encFinished (e : EncState) : EncState :=
  { e with phase := .done, acc := 0#7, nbits := 0#3, wr := flushWr e, len := flushWr e,
           buf := (flushBuf e).write 0 (e.n.setWidth 8) }

theorem exec_encEnd_of_collect {s : State} (hphase : s.enc.phase = .collect) (hwr : s.enc.wr.toNat ≤ 17) :
    exec .encEnd s = .next (s.setEnc (encFinished s.enc)) := by
  rw [exec_enc_eq s rfl]
  simp only [encAfter, hphase, packFlush_of_wr_le hwr, Except.bind, lenPrepend_eq]
  rfl

theorem encFinished_read?_zero (e : EncState) :
    (encFinished e).buf.read? 0 = some (BitVec.ofNat 8 e.n.toNat) := by
  rw [BitVec.ofNat_toNat]
  exact Memory.read?_write_same _ _ _

theorem encFinished_read?_of_ne_zero (e : EncState) {a : Nat} (ha : a ≠ 0) :
    (encFinished e).buf.read? a = (flushBuf e).read? a :=
  Memory.read?_write_other _ _ ha

/-! ## Under the invariant of R45 -/

/-- In COLLECT `enc_wr` is the length byte's place and those of the whole bytes of at most 27 symbols. -/
theorem EncInv.wr_le_of_collect {e : EncState} (hinv : EncInv e) (hphase : e.phase = .collect) : e.wr.toNat ≤ 17 := by
  obtain ⟨ks, hcollect⟩ := hinv.collect hphase
  have hn := hinv.n_le_raw
  have hraw := hcollect.raw_le
  have hwr := hcollect.wr_eq
  omega

/-- The flush completes the last byte, if one is begun: `1 + ceil(5 * enc_n / 8)` bytes in all (R208). -/
theorem EncInv.toNat_flushWr {e : EncState} (hinv : EncInv e) (hphase : e.phase = .collect) :
    (flushWr e).toNat = 1 + (5 * e.n.toNat + 7) / 8 := by
  obtain ⟨ks, hcollect⟩ := hinv.collect hphase
  have hwr := hcollect.wr_eq
  have hnbits := hcollect.nbits_eq
  by_cases hempty : e.nbits = 0#3
  · have hwhole : 5 * e.n.toNat % 8 = 0 := hnbits.symm.trans (congrArg BitVec.toNat hempty)
    rw [flushWr, if_pos hempty]
    omega
  · have hbegun : e.nbits.toNat ≠ 0 := fun h => hempty (BitVec.eq_of_toNat_eq h)
    rw [toNat_flushWr_of_pending hempty (hinv.wr_le_of_collect hphase)]
    omega

/-- Every address of the payload is written: the length byte, the bytes stored while collecting, the flushed byte. -/
theorem EncInv.encFinished_written {e : EncState} (hinv : EncInv e) (hphase : e.phase = .collect) {a : Nat}
    (ha : a < (flushWr e).toNat) : ∃ b, (encFinished e).buf.read? a = some b := by
  obtain ⟨ks, hcollect⟩ := hinv.collect hphase
  by_cases hzero : a = 0
  · subst hzero
    exact ⟨_, encFinished_read?_zero e⟩
  rw [encFinished_read?_of_ne_zero e hzero]
  by_cases hstored : a < e.wr.toNat
  · have hother : a ≠ e.wr.toNat := Nat.ne_of_lt hstored
    have hdata := hcollect.written (a - 1) (by omega)
    rw [show 1 + (a - 1) = a by omega] at hdata
    exact ⟨_, (flushBuf_read?_other (.inr hother)).trans hdata⟩
  · by_cases hempty : e.nbits = 0#3
    · rw [flushWr, if_pos hempty] at ha
      exact absurd ha hstored
    · rw [toNat_flushWr_of_pending hempty (hinv.wr_le_of_collect hphase)] at ha
      have hlast : a = e.wr.toNat := by omega
      exact ⟨_, hlast ▸ flushBuf_read?_wr hempty⟩

end Sys2Proof.Machine
end

section
/-!
PROOFS. The ENC channel (spec/44_encode_channel.md): its four commands.
-/
namespace Sys2Proof.Proofs
open Sys2Proof Sys2Proof.Machine

/-- Settles O17: the finished channel, read clause by clause; the invariant bounds `enc_wr`, fixes the length and says that
every byte of the payload is written. -/
theorem encEndFinishesThePayload : Obligations.EncEndFinishesThePayload := by
  refine ⟨fun d => decodeWord_append .enc 0b11#2 d, fun s hinv hphase => ?_⟩
  refine ⟨_, exec_encEnd_of_collect hphase (hinv.wr_le_of_collect hphase), rfl, rfl, hinv.toNat_flushWr hphase,
    encFinished_read?_zero _, fun hpending => ?_, fun a hzero hother => ?_, rfl, fun a ha => ?_,
    fun a => encRead_of_not_lt⟩
  · have hwr : s.enc.wr.toNat ≠ 0 := Nat.ne_of_gt hinv.wr_pos
    exact (encFinished_read?_of_ne_zero _ hwr).trans (flushBuf_read?_wr hpending)
  · exact (encFinished_read?_of_ne_zero _ hzero).trans (flushBuf_read?_other hother)
  · obtain ⟨b, hb⟩ := hinv.encFinished_written hphase (BitVec.lt_def.1 ha)
    exact ⟨b, hb, encRead_of_written rfl ha hb⟩

/-- Settles O11: the word's code is `ENC.NOP`'s, and the meaning is the state itself. -/
theorem encNopWritesNoRegister : Obligations.EncNopWritesNoRegister :=
  ⟨fun d => decodeWord_append .enc 0b00#2 d, fun _ => rfl⟩

/-- Settles O12: the cleared channel depends on the buffer only, so clearing it again gives it again; in FAULT every other
command leaves the channel in FAULT. -/
theorem encStartClearsTheChannel : Obligations.EncStartClearsTheChannel := by
  refine ⟨fun d => decodeWord_append .enc 0b01#2 d, fun s => ?_⟩
  refine ⟨_, exec_encStart s, rfl, rfl, rfl, encRead_of_not_done (by simp), exec_encStart _, ?_⟩
  intro i u hfault hnext hleft
  by_contra hi
  have hkept : u.enc = s.enc := exec_enc_eq_of_fault hfault hi hnext
  exact hleft (hkept ▸ hfault)

/-- Settles O13: of the ENC commands only `ENC.START`, which `ENC.CHAR` is not, acts outside COLLECT. -/
theorem encCharOutsideCollectWritesNothing : Obligations.EncCharOutsideCollectWritesNothing := by
  intro s c hphase
  exact exec_enc_of_not_collect rfl (by simp) hphase

/-- Settles O14: the fault entry, which leaves a phase in which nothing is readable. -/
theorem twentyEighthCharacterRaisesInputTooLong : Obligations.TwentyEighthCharacterRaisesInputTooLong := by
  intro s c hphase hraw
  refine ⟨_, exec_encChar_of_limit c hphase hraw, rfl, rfl, encRead_of_not_done ?_⟩
  simp [raiseInputTooLong_eq]

/-- Settles O15: the character misses the table, and the raw length is below the limit. -/
theorem invalidCharacterCountsInRawLengthOnly : Obligations.InvalidCharacterCountsInRawLengthOnly := by
  intro s c hphase hraw hout
  have hlimit : s.enc.raw ≠ 27#5 := by bv_omega
  exact exec_encChar_of_miss hphase hlimit (cp_eq_none hout)

/-- Settles O18: as for `ENC.CHAR`, only `ENC.START` acts outside COLLECT. -/
theorem encEndOutsideCollectWritesNothing : Obligations.EncEndOutsideCollectWritesNothing := by
  intro s hphase
  exact exec_enc_of_not_collect rfl (by simp) hphase

end Sys2Proof.Proofs
end

section
/-!
SUPPORT. The DEC commands that take no byte (spec/45_decode_channel.md R231, R232, R240), as what they make of the
channel's registers.
-/
namespace Sys2Proof.Machine
open Sys2Proof

theorem exec_decNop (s : State) :
    exec .decNop s = .next (s.setDec (s.dec.setLanes false 0x00#8 false 0x00#8)) :=
  exec_dec_next s rfl

theorem exec_decStart (s : State) : exec .decStart s = .next (s.setDec DecState.cleared) :=
  exec_dec_next s rfl

/-- Outside DONE, `DEC.END` is `UNPACK.DROP` with the phase set to DONE and both lanes cleared: LEN and DATA do not differ
(R240). -/
theorem decAfter_end_of_not_done {d : DecState} (hphase : d.phase ≠ .done) :
    decAfter .decEnd d = ({ unpackDrop d with phase := .done } : DecState).setLanes false 0x00#8 false 0x00#8 := by
  cases hp : d.phase with
  | len => simp only [decAfter, hp, writeLanes_nil]
  | data => simp only [decAfter, hp, writeLanes_nil]
  | done => exact absurd hp hphase

/-- In DONE, `DEC.END` clears the lanes as `DEC.NOP` does (R240). -/
theorem decAfter_end_of_done {d : DecState} (hphase : d.phase = .done) :
    decAfter .decEnd d = d.setLanes false 0x00#8 false 0x00#8 := by
  simp only [decAfter, hphase, writeLanes_nil]

end Sys2Proof.Machine
end

section
/-!
PROOFS. The DEC channel (spec/45_decode_channel.md): `DEC.NOP`, `DEC.START` and `DEC.END`.
-/
namespace Sys2Proof.Proofs
open Sys2Proof Sys2Proof.Machine

/-- Settles O20: the word's code is `DEC.NOP`'s, which gives the lanes no character in any phase. -/
theorem decNopClearsTheLanesOnly : Obligations.DecNopClearsTheLanesOnly :=
  ⟨fun d => decodeWord_append .dec 0b00#2 d, exec_decNop⟩

/-- Settles O21: the channel `DEC.START` leaves does not depend on the one it finds, so a second one leaves it again. -/
theorem decStartClearsTheChannel : Obligations.DecStartClearsTheChannel := by
  refine ⟨fun d => decodeWord_append .dec 0b01#2 d, fun s => ?_⟩
  exact ⟨_, exec_decStart s, rfl, rfl, exec_decStart _⟩

/-- Settles O25: a DEC command writes its channel only; what `DEC.END` writes there is told apart by DONE alone. -/
theorem decEndClosesTheTransaction : Obligations.DecEndClosesTheTransaction := by
  refine ⟨fun d => decodeWord_append .dec 0b11#2 d, fun s => ⟨fun hopen => ?_, fun hdone => ?_⟩⟩
  · rw [exec_dec_next s rfl, decAfter_end_of_not_done hopen]
    rfl
  · rw [exec_dec_next s rfl, decAfter_end_of_done hdone]
    rfl

end Sys2Proof.Proofs
end

section
/-!
SUPPORT. A step (spec/10_state.md R21) in the two cases in which it answers a next state, and `ENC.START` told from the
other ENC commands by its code (spec/30_encoding.md R100).
-/
namespace Sys2Proof.Machine
open Sys2Proof

/-- Of the four codes only `0b01` is `ENC.START`'s (R100). -/
theorem encCommandAt_eq_encStart_iff {p : InPorts} : encCommandAt p = .encStart ↔ p.encCmd = 0b01#2 := by
  rcases encCmd_cases p with ⟨hcode, hcmd⟩ | ⟨hcode, hcmd⟩ | ⟨hcode, hcmd⟩ | ⟨hcode, hcmd⟩ <;> simp [hcode, hcmd]

theorem step_of_reset {s : State} (hrst : s.ports.rst = true) :
    step s = .next (hostAdvance (resetRegisters s)) := by
  rw [step_eq, if_pos hrst]

theorem step_of_encAfter_ok {s : State} {e : EncState} (hrst : s.ports.rst = false)
    (hafter : encAfter (encCommandAt s.ports) s.enc = .ok e) :
    step s = .next (hostAdvance ((s.setEnc e).setDec (decAfter (decCommandAt s.ports) s.dec))) := by
  rw [step_eq, hrst, hafter]
  rfl

theorem encErr_of_fault {e : EncState} (hphase : e.phase = .fault) : encErr e = true := by
  simp only [encErr, hphase]

end Sys2Proof.Machine
end

section
/-!
PROOFS. The exception `InputTooLong` (spec/60_exceptions.md): the ways out of FAULT.
-/
namespace Sys2Proof.Proofs
open Sys2Proof Sys2Proof.Machine

/-- Settles O35: reset and `ENC.START` write the cleared channel in any phase; every other ENC command has no effect
outside COLLECT, and the DEC command of the step does not reach the ENC channel. -/
theorem onlyStartOrResetLeavesFault : Obligations.OnlyStartOrResetLeavesFault := by
  intro s hfault
  cases hrst : s.ports.rst with
  | true => exact ⟨_, step_of_reset hrst, fun _ => rfl, nofun⟩
  | false =>
    by_cases hcode : s.ports.encCmd = 0b01#2
    · have hcleared : encAfter (encCommandAt s.ports) s.enc = .ok (EncState.cleared s.enc.buf) := by
        rw [encCommandAt_eq_encStart_iff.2 hcode]
        rfl
      exact ⟨_, step_of_encAfter_ok hrst hcleared, fun _ => rfl, fun _ hother => absurd hcode hother⟩
    · have hkept : encAfter (encCommandAt s.ports) s.enc = .ok s.enc :=
        encAfter_of_not_collect (by simp [hfault]) (mt encCommandAt_eq_encStart_iff.1 hcode)
      refine ⟨_, step_of_encAfter_ok hrst hkept, fun hleave => ?_, fun _ _ => ⟨rfl, encErr_of_fault hfault⟩⟩
      exact absurd hleave (by simp [hcode])

end Sys2Proof.Proofs
end

section
/-!
SUPPORT. What a reset step leaves in the two channels (spec/10_state.md R47).
-/
namespace Sys2Proof.Machine
open Sys2Proof

/-- A reset step answers, with both channels cleared and the buffer as it was, whatever else is on the ports. -/
theorem exists_step_cleared_of_reset {s : State} (hrst : s.ports.rst = true) :
    ∃ t, step s = .next t ∧ t.enc = EncState.cleared s.enc.buf ∧ t.dec = DecState.cleared :=
  ⟨_, step_of_reset hrst, rfl, rfl⟩

end Sys2Proof.Machine
end

section
/-!
PROOFS. The reset step (spec/70_reset_and_hazards.md).
-/
namespace Sys2Proof.Proofs
open Sys2Proof Sys2Proof.Machine

/-- Settles O27: what a reset step leaves depends on the buffer alone, and it keeps the buffer, so a held `rst` leaves the
same again. -/
theorem resetStepWritesTheResetValues : Obligations.ResetStepWritesTheResetValues := by
  intro s hrst
  obtain ⟨t, hstep, henc, hdec⟩ := exists_step_cleared_of_reset hrst
  refine ⟨t, hstep, henc, hdec, fun hheld => ?_⟩
  obtain ⟨u, hstep', henc', hdec'⟩ := exists_step_cleared_of_reset hheld
  have hbuf : t.enc.buf = s.enc.buf := by rw [henc]; rfl
  exact ⟨u, hstep', by rw [henc', hbuf, henc], by rw [hdec', hdec]⟩

end Sys2Proof.Proofs
end

section
/-!
SUPPORT. The bit packer as cutting of a stream (spec/41_bit_pack_encoder.md R152 to R156): what its registers and the
bytes it has written say of the symbols pushed so far.
-/
namespace Sys2Proof.Machine
open Sys2Proof

/-- The packer after the symbols `ks` (R153): the whole bytes of their stream are written, the rest of it is pending. -/
structure Packed (e : EncState) (ks : List Sym) : Prop where
  nbits_eq : e.nbits.toNat = 5 * ks.length % 8
  wr_eq : e.wr.toNat = 1 + 5 * ks.length / 8
  written : ∀ j, j < 5 * ks.length / 8 → e.buf.read? (1 + j) = some (streamByte (symStream ks) j)
  pending : e.acc.toNat = uint ((symStream ks).drop (8 * (5 * ks.length / 8)))

/-- A packer with the cleared registers has taken no symbols, whatever is in the buffer. -/
theorem Packed.nil {e : EncState} (hacc : e.acc = 0#7) (hnbits : e.nbits = 0#3) (hwr : e.wr = 1#5) : Packed e [] :=
  ⟨by simp [hnbits], by simp [hwr], by simp, by simp [hacc]⟩

theorem Packed.wr_le {e : EncState} {ks : List Sym} (h : Packed e ks) (hlen : ks.length ≤ 27) : e.wr.toNat ≤ 17 := by
  have hwr := h.wr_eq
  omega

/-- The pending bits are those of `enc_nbits` (R157). -/
theorem Packed.acc_lt {e : EncState} {ks : List Sym} (h : Packed e ks) : e.acc.toNat < 2 ^ e.nbits.toNat := by
  have hlt := uint_lt ((symStream ks).drop (8 * (5 * ks.length / 8)))
  rwa [List.length_drop, symStream_length, ← h.pending,
    show 5 * ks.length - 8 * (5 * ks.length / 8) = e.nbits.toNat by rw [h.nbits_eq]; omega] at hlt

/-! ## `PACK.PUSH` -/

/-- Pending bits and a new symbol, as the part of the longer stream that is not written yet. -/
theorem Packed.pending_concat {e : EncState} {ks : List Sym} (h : Packed e ks) (k : Sym) :
    uint ((symStream (ks ++ [k])).drop (8 * (5 * ks.length / 8))) = e.acc.toNat * 32 + k.toNat := by
  rw [uint_drop_concat_sym ks k (by omega), h.pending]

theorem Packed.pending_concat_length {e : EncState} {ks : List Sym} (h : Packed e ks) (k : Sym) :
    ((symStream (ks ++ [k])).drop (8 * (5 * ks.length / 8))).length = e.nbits.toNat + 5 := by
  rw [List.length_drop, symStream_length, List.length_append, List.length_singleton, h.nbits_eq]
  omega

/-- The bytes already written are bytes of the longer stream. -/
theorem Packed.written_concat {e : EncState} {ks : List Sym} (h : Packed e ks) (k : Sym) {j : Nat}
    (hj : j < 5 * ks.length / 8) : e.buf.read? (1 + j) = some (streamByte (symStream (ks ++ [k])) j) := by
  rw [h.written j hj, symStream_concat, streamByte_append _ _ (by rw [symStream_length]; omega)]

/-- The eight oldest pending bits are the next byte of the stream. -/
theorem Packed.streamByte_concat {e : EncState} {ks : List Sym} (h : Packed e ks) (k : Sym) :
    streamByte (symStream (ks ++ [k])) (5 * ks.length / 8) =
      BitVec.ofNat 8 ((e.acc.toNat * 32 + k.toNat) / 2 ^ (e.nbits.toNat - 3)) := by
  rw [streamByte, uint_take, h.pending_concat, h.pending_concat_length,
    show e.nbits.toNat + 5 - 8 = e.nbits.toNat - 3 by omega]

/-- What is left after the eight oldest bits. -/
theorem Packed.residue_concat {e : EncState} {ks : List Sym} (h : Packed e ks) (k : Sym) :
    uint ((symStream (ks ++ [k])).drop (8 * (5 * ks.length / 8 + 1))) =
      (e.acc.toNat * 32 + k.toNat) % 2 ^ (e.nbits.toNat - 3) := by
  rw [Nat.mul_succ, ← List.drop_drop, uint_drop, h.pending_concat, h.pending_concat_length,
    show e.nbits.toNat + 5 - 8 = e.nbits.toNat - 3 by omega]

/-- A push below the length limit succeeds and takes the symbol (R152, R153). -/
theorem Packed.push {e : EncState} {ks : List Sym} (h : Packed e ks) (k : Sym) (hlen : ks.length < 27) :
    ∃ e', packPush k e = .ok e' ∧ Packed e' (ks ++ [k]) := by
  have hnbits := h.nbits_eq
  have hwr := h.wr_eq
  have hlen' : (ks ++ [k]).length = ks.length + 1 := List.length_append
  have hx : e.acc.toNat * 32 + k.toNat < 2 ^ (e.nbits.toNat + 5) := acc_sym_lt k h.acc_lt
  by_cases hfew : e.nbits.toNat < 3
  · have hbytes : 5 * (ks ++ [k]).length / 8 = 5 * ks.length / 8 := by omega
    refine ⟨_, packPush_kept k hfew, ?_, ?_, fun j hj => ?_, ?_⟩
    · rw [EncState.setPack_nbits, BitVec.toNat_ofNat]
      omega
    · rw [EncState.setPack_wr, hbytes, hwr]
    · exact h.written_concat k (hbytes ▸ hj)
    · have hfit : 2 ^ (e.nbits.toNat + 5) ≤ 2 ^ 7 := Nat.pow_le_pow_right (by decide) (by omega)
      rw [EncState.setPack_acc, hbytes, h.pending_concat, BitVec.toNat_ofNat, Nat.mod_eq_of_lt (by omega)]
  · have hmany : 3 ≤ e.nbits.toNat := by omega
    have hbytes : 5 * (ks ++ [k]).length / 8 = 5 * ks.length / 8 + 1 := by omega
    refine ⟨_, packPush_stored k hmany (h.wr_le hlen.le), ?_, ?_, fun j hj => ?_, ?_⟩
    · rw [EncState.setPack_nbits, BitVec.toNat_ofNat]
      omega
    · rw [EncState.setPack_wr, hbytes]
      bv_omega
    · rw [EncState.setPack_buf, EncState.setBuf_buf, Memory.read?_write]
      split
      next hlast => rw [show j = 5 * ks.length / 8 by omega, h.streamByte_concat]
      next hother => exact h.written_concat k (by omega)
    · have hfit : 2 ^ (e.nbits.toNat - 3) ≤ 2 ^ 7 := Nat.pow_le_pow_right (by decide) (by omega)
      have hlt := Nat.mod_lt (e.acc.toNat * 32 + k.toNat) (Nat.two_pow_pos (e.nbits.toNat - 3))
      rw [EncState.setPack_acc, hbytes, h.residue_concat, BitVec.toNat_ofNat, Nat.mod_eq_of_lt (by omega)]

/-- Pushes of several symbols in turn (R156). -/
theorem Packed.pushAll {e : EncState} {ks : List Sym} (h : Packed e ks) (ks' : List Sym)
    (hlen : (ks ++ ks').length ≤ 27) : ∃ e', packAll ks' e = .ok e' ∧ Packed e' (ks ++ ks') := by
  induction ks' generalizing e ks with
  | nil => exact ⟨e, rfl, by rwa [List.append_nil]⟩
  | cons k ks' ih =>
    obtain ⟨f, hpush, hf⟩ := h.push k (by simp at hlen; omega)
    obtain ⟨e', hall, he'⟩ := ih hf (by rwa [List.append_assoc])
    exact ⟨e', by rw [packAll, hpush]; exact hall, by rwa [List.append_assoc] at he'⟩

/-! ## `PACK.FLUSH` -/

theorem uint_replicate_false (n : Nat) : uint (List.replicate n false) = 0 := by
  induction n with
  | zero => rfl
  | succ n ih => rw [List.replicate_succ, uint_cons, ih]; simp

/-- A byte of `pack5` that lies wholly in the stream has no padding. -/
theorem pack5_getElem?_of_whole (ks : List Sym) {j : Nat} (hj : j < 5 * ks.length / 8) :
    (pack5 ks)[j]? = some (streamByte (symStream ks) j) := by
  have hrange : j < dataBytes ks.length := by unfold dataBytes; omega
  rw [pack5_eq, List.getElem?_map, List.getElem?_range hrange, Option.map_some,
    streamByte_append _ _ (by rw [symStream_length]; omega)]

/-- The byte of `pack5` that the stream does not fill is its last bits, shifted up. -/
theorem pack5_getElem?_last (ks : List Sym) (hrest : 5 * ks.length % 8 ≠ 0) :
    (pack5 ks)[5 * ks.length / 8]? = some (BitVec.ofNat 8
      (uint ((symStream ks).drop (8 * (5 * ks.length / 8))) * 2 ^ (8 - 5 * ks.length % 8))) := by
  have hrange : 5 * ks.length / 8 < dataBytes ks.length := by unfold dataBytes; omega
  have hpad : 8 * dataBytes ks.length - 5 * ks.length = 8 - 5 * ks.length % 8 := by unfold dataBytes; omega
  have hall : ((symStream ks ++ padding ks.length).drop (8 * (5 * ks.length / 8))).length ≤ 8 := by
    rw [List.length_drop, padded_length]
    unfold dataBytes
    omega
  rw [pack5_eq, List.getElem?_map, List.getElem?_range hrange, Option.map_some, streamByte,
    List.take_of_length_le hall, List.drop_append_of_le_length (by rw [symStream_length]; omega), uint_append,
    padding, uint_replicate_false, List.length_replicate, hpad, Nat.add_zero]

theorem Packed.nbits_eq_zero_iff {e : EncState} {ks : List Sym} (h : Packed e ks) :
    e.nbits = 0#3 ↔ 5 * ks.length % 8 = 0 := by
  rw [← h.nbits_eq]
  exact ⟨fun hz => by rw [hz]; rfl, fun hz => BitVec.eq_of_toNat_eq hz⟩

/-- The flush completes the last byte, if one is begun (R155). -/
theorem Packed.toNat_flushWr {e : EncState} {ks : List Sym} (h : Packed e ks) (hlen : ks.length ≤ 27) :
    (flushWr e).toNat = 1 + dataBytes ks.length := by
  have hwr := h.wr_eq
  unfold dataBytes
  by_cases hrest : 5 * ks.length % 8 = 0
  · rw [flushWr, if_pos (h.nbits_eq_zero_iff.2 hrest)]
    omega
  · rw [toNat_flushWr_of_pending (mt h.nbits_eq_zero_iff.1 hrest) (h.wr_le hlen)]
    omega

/-- After the flush the data bytes are `pack5` of the symbols (R156). -/
theorem Packed.flushBuf_read? {e : EncState} {ks : List Sym} (h : Packed e ks) {j : Nat}
    (hj : j < dataBytes ks.length) : (flushBuf e).read? (1 + j) = (pack5 ks)[j]? := by
  have hwr := h.wr_eq
  by_cases hwhole : j < 5 * ks.length / 8
  · rw [flushBuf_read?_other (.inr (by omega)), h.written j hwhole, pack5_getElem?_of_whole ks hwhole]
  · have hrest : 5 * ks.length % 8 ≠ 0 := by unfold dataBytes at hj; omega
    have hlast : j = 5 * ks.length / 8 := by unfold dataBytes at hj; omega
    rw [hlast, pack5_getElem?_last ks hrest, ← hwr, flushBuf_read?_wr (mt h.nbits_eq_zero_iff.1 hrest), flushByte,
      h.pending, h.nbits_eq]

/-! ## What the unit leaves alone -/

/-- The registers outside the packer and every address but `1 .. m` are as before. -/
structure SameOutsidePacker (m : Nat) (e e' : EncState) : Prop where
  phase : e'.phase = e.phase
  raw : e'.raw = e.raw
  n : e'.n = e.n
  len : e'.len = e.len
  read : ∀ a, a = 0 ∨ m < a → e'.buf.read? a = e.buf.read? a

theorem SameOutsidePacker.refl (m : Nat) (e : EncState) : SameOutsidePacker m e e :=
  ⟨rfl, rfl, rfl, rfl, fun _ _ => rfl⟩

theorem SameOutsidePacker.trans {m : Nat} {e f g : EncState} (h : SameOutsidePacker m e f)
    (h' : SameOutsidePacker m f g) : SameOutsidePacker m e g :=
  ⟨h'.phase.trans h.phase, h'.raw.trans h.raw, h'.n.trans h.n, h'.len.trans h.len,
    fun a ha => (h'.read a ha).trans (h.read a ha)⟩

theorem SameOutsidePacker.of_packPush {m : Nat} {k : Sym} {e e' : EncState} (h : packPush k e = .ok e')
    (hpos : 1 ≤ e.wr.toNat) (hm : e.wr.toNat ≤ m) : SameOutsidePacker m e e' := by
  obtain ⟨hphase, hraw, hn, hlen, hread, _⟩ := packPush_frame h
  exact ⟨hphase, hraw, hn, hlen, fun a ha => hread a (by omega)⟩

theorem SameOutsidePacker.of_packFlush {m : Nat} {e e' : EncState} (h : packFlush e = .ok e')
    (hread : ∀ a, a = 0 ∨ m < a → e'.buf.read? a = e.buf.read? a) : SameOutsidePacker m e e' := by
  obtain ⟨hphase, hraw, hn, hlen, _⟩ := packFlush_frame h
  exact ⟨hphase, hraw, hn, hlen, hread⟩

theorem SameOutsidePacker.of_packAll {ks' : List Sym} {e e' : EncState} {ks : List Sym} (h : Packed e ks)
    (hlen : (ks ++ ks').length ≤ 27) (hall : packAll ks' e = .ok e') :
    SameOutsidePacker (dataBytes (ks ++ ks').length) e e' := by
  induction ks' generalizing e ks with
  | nil => cases hall; exact .refl _ _
  | cons k ks' ih =>
    have hwr := h.wr_eq
    have hlen' : (ks ++ k :: ks').length = ks.length + ks'.length + 1 := List.length_append
    obtain ⟨f, hpush, hf⟩ := h.push k (by omega)
    rw [packAll, hpush] at hall
    have hbound : e.wr.toNat ≤ dataBytes (ks ++ k :: ks').length := by unfold dataBytes; omega
    have hrest := ih hf (by simpa using hlen) hall
    rw [List.append_assoc] at hrest
    exact (SameOutsidePacker.of_packPush hpush (by omega) hbound).trans hrest

/-- `PACK.FLUSH` writes no address above the data bytes (R155). -/
theorem Packed.flushBuf_read?_outside {e : EncState} {ks : List Sym} (h : Packed e ks) {a : Nat}
    (ha : a = 0 ∨ dataBytes ks.length < a) : (flushBuf e).read? a = e.buf.read? a := by
  have hwr := h.wr_eq
  refine flushBuf_read?_other ?_
  by_cases hrest : 5 * ks.length % 8 = 0
  · exact .inl (h.nbits_eq_zero_iff.2 hrest)
  · unfold dataBytes at ha
    omega

end Sys2Proof.Machine
end

section
/-!
PROOFS. The bit packer (spec/41_bit_pack_encoder.md): the emission schedule and the whole unit.
-/
namespace Sys2Proof.Proofs
open Sys2Proof Sys2Proof.Machine

/-- `PACK.CLEAR` leaves a packer that has taken nothing (R151). -/
theorem packed_packClear (e : EncState) : Packed (packClear e) [] := .nil rfl rfl rfl

/-- Settles O8: the packer's registers after the symbols; whether the next push writes depends on the bits then
pending. -/
theorem packEmissionSchedule : Obligations.PackEmissionSchedule := by
  refine ⟨fun ks e hlen => ?_, fun ks k e hlen => ?_⟩
  · obtain ⟨e', hall, he'⟩ := (packed_packClear e).pushAll ks hlen
    have hwr := he'.wr_eq
    exact ⟨e', hall, by simp [hwr], he'.nbits_eq⟩
  · obtain ⟨e', hall, he'⟩ := (packed_packClear e).pushAll ks hlen.le
    have hnbits : e'.nbits.toNat = 5 * ks.length % 8 := he'.nbits_eq
    have hwr : e'.wr.toNat ≤ 17 := he'.wr_le hlen.le
    have hschedule : 3 ≤ 5 * ks.length % 8 ↔ (ks.length + 1) % 8 ∈ [2, 4, 5, 7, 0] := by
      simp only [List.mem_cons, List.not_mem_nil, or_false]
      omega
    by_cases hmany : 3 ≤ 5 * ks.length % 8
    · refine ⟨e', _, hall, packPush_stored k (hnbits ▸ hmany) hwr, ?_, hschedule⟩
      rw [if_pos hmany]
      have hadvance : (e'.wr + 1#5).toNat = e'.wr.toNat + 1 := by bv_omega
      exact ⟨hadvance, _, Memory.read?_write_same _ _ _⟩
    · refine ⟨e', _, hall, packPush_kept k (by omega), ?_, hschedule⟩
      rw [if_neg hmany]
      exact ⟨rfl, rfl⟩

/-- Settles O9: the pushes, then the flush, each with what it writes and what it leaves alone. -/
theorem packUnitComputesPack5 : Obligations.PackUnitComputesPack5 := by
  intro ks e hlen
  obtain ⟨f, hall, hf⟩ := (packed_packClear e).pushAll ks hlen
  have hflush := packFlush_of_wr_le (hf.wr_le hlen)
  have hpushed := SameOutsidePacker.of_packAll (packed_packClear e) hlen hall
  have hsame := hpushed.trans (.of_packFlush hflush fun a => hf.flushBuf_read?_outside)
  refine ⟨_, by rw [hall]; exact hflush, hf.toNat_flushWr hlen, pack5_length ks, ?_,
    (Nat.shiftRight_eq_div_pow _ 3).symm, by omega, rfl, rfl, fun j => hf.flushBuf_read?, hsame.read, hsame.phase,
    hsame.raw, hsame.n, hsame.len⟩
  split <;> omega

end Sys2Proof.Proofs
end

section
/-!
SUPPORT. The ENC channel while it collects and when it has finished (spec/10_state.md R45): how each command takes it
from one to the other.
-/
namespace Sys2Proof.Machine
open Sys2Proof

/-- The channel in COLLECT after `raw` characters, whose valid ones have the code points `ks`. -/
structure EncOpen (e : EncState) (ks : List Sym) (raw : Nat) : Prop where
  phase : e.phase = .collect
  raw_eq : e.raw.toNat = raw
  raw_le : raw ≤ 27
  count_le : ks.length ≤ raw
  len_zero : e.len = 0#5
  count : e.n.toNat = ks.length
  codePoints : ∀ k ∈ ks, k < 29#5
  packed : Packed e ks

theorem EncOpen.count_le_limit {e : EncState} {ks : List Sym} {raw : Nat} (h : EncOpen e ks raw) : ks.length ≤ 27 :=
  h.count_le.trans h.raw_le

/-- The cleared channel has taken nothing, whatever is in the buffer. -/
theorem EncOpen.cleared (m : Memory) : EncOpen (EncState.cleared m) [] 0 :=
  ⟨rfl, rfl, by simp, le_rfl, rfl, rfl, by simp, .nil rfl rfl rfl⟩

/-- It is R45's "phase = COLLECT". -/
theorem EncOpen.collectInv {e : EncState} {ks : List Sym} {raw : Nat} (h : EncOpen e ks raw) : EncCollectInv e ks := by
  have hwr : e.wr.toNat - 1 = 5 * ks.length / 8 := by rw [h.packed.wr_eq, Nat.add_sub_cancel_left]
  refine ⟨h.raw_eq ▸ h.raw_le, h.len_zero, h.count, h.codePoints, ?_, ?_, fun j hj => ?_, ?_⟩
  · rw [h.count, h.packed.nbits_eq]
  · rw [h.count, h.packed.wr_eq]
  · exact h.packed.written j (hwr ▸ hj)
  · rw [hwr, h.packed.pending]

theorem EncInv.exists_open {e : EncState} (hinv : EncInv e) (hphase : e.phase = .collect) :
    ∃ ks, EncOpen e ks e.raw.toNat := by
  obtain ⟨ks, h⟩ := hinv.collect hphase
  have hwr : e.wr.toNat - 1 = 5 * ks.length / 8 := by rw [h.wr_eq, h.count, Nat.add_sub_cancel_left]
  refine ⟨ks, hphase, rfl, h.raw_le, h.count ▸ hinv.n_le_raw, h.len_zero, h.count, h.codePoints, ?_, ?_, ?_, ?_⟩
  · rw [h.nbits_eq, h.count]
  · rw [h.wr_eq, h.count]
  · exact fun j hj => h.written j (hwr.symm ▸ hj)
  · rw [h.pending, hwr]

/-! ## The invariant of each phase makes the invariant of the channel -/

theorem EncOpen.encInv {e : EncState} {ks : List Sym} {raw : Nat} (h : EncOpen e ks raw)
    (hwf : Memory.wf e.buf = true) : EncInv e := by
  have hraw := h.raw_eq
  have hle := h.raw_le
  have hcount := h.count
  have hcount_le := h.count_le
  have hwr_eq := h.packed.wr_eq
  have hwr := h.packed.wr_le h.count_le_limit
  exact ⟨by omega, by omega, Nat.le_of_lt_succ e.nbits.isLt, h.packed.acc_lt, by omega, by omega, hwf,
    fun _ => ⟨ks, h.collectInv⟩, by simp [h.phase], by simp [h.phase]⟩

theorem EncDoneInv.encInv {e : EncState} {ks : List Sym} (h : EncDoneInv e ks) (hphase : e.phase = .done)
    (hn : e.n.toNat ≤ e.raw.toNat) (hraw : e.raw.toNat ≤ 28) (hwf : Memory.wf e.buf = true) : EncInv e := by
  have hlen := h.len_eq
  have hle := h.n_le
  unfold dataBytes at hlen
  exact ⟨hn, hraw, by simp [h.nbits_zero], by simp [h.nbits_zero, h.acc_zero], by rw [h.wr_eq]; omega,
    by rw [h.wr_eq]; omega, hwf, by simp [hphase], fun _ => ⟨ks, h⟩, by simp [hphase]⟩

theorem EncFaultInv.encInv {e : EncState} (h : EncFaultInv e) (hphase : e.phase = .fault)
    (hwf : Memory.wf e.buf = true) : EncInv e :=
  ⟨by simp [h.n_zero], by simp [h.raw_eq], by simp [h.nbits_zero], by simp [h.nbits_zero, h.acc_zero],
    by simp [h.wr_one], by simp [h.wr_one], hwf, by simp [hphase], by simp [hphase], fun _ => h⟩

theorem encFaultInv_raiseInputTooLong (e : EncState) : EncFaultInv (raiseInputTooLong e) :=
  ⟨rfl, rfl, rfl, rfl, rfl, rfl⟩

/-! ## The commands -/

/-- Every ENC command keeps the canonical form of the buffer. -/
theorem encAfter_wf {i : Instr} {e e' : EncState} (h : encAfter i e = .ok e') (hwf : Memory.wf e.buf = true) :
    Memory.wf e'.buf = true := by
  cases i with
  | encStart => cases h; exact hwf
  | encChar c =>
    rcases encAfter_char_cases h with ⟨_, rfl⟩ | ⟨_, _, rfl⟩ | ⟨_, _, _, rfl⟩ | ⟨_, _, k, f, _, hpush, rfl⟩
    · exact hwf
    · exact hwf
    · exact hwf
    · obtain ⟨_, _, _, _, _, hkeep⟩ := packPush_frame hpush
      exact hkeep hwf
  | encEnd =>
    rcases encAfter_end_cases h with ⟨_, rfl⟩ | ⟨_, f, hflush, rfl⟩
    · exact hwf
    · obtain ⟨_, _, _, _, _, _, _, hkeep⟩ := packFlush_frame hflush
      exact Memory.wf_write _ (hkeep hwf) (by decide)
  | _ => cases h; exact hwf

theorem encAfter_char_at_limit {e : EncState} (c : Byte) (hphase : e.phase = .collect) (hraw : e.raw = 27#5) :
    encAfter (.encChar c) e = .ok (raiseInputTooLong e) := by
  simp only [encAfter, hphase, if_pos hraw]

theorem encAfter_char_of_miss {e : EncState} {c : Byte} (hphase : e.phase = .collect) (hraw : e.raw ≠ 27#5)
    (hmiss : cp c = none) : encAfter (.encChar c) e = .ok { e with raw := e.raw + 1#5 } := by
  have hmap : mapC2S c = (false, 0#5) := by simp only [mapC2S, hmiss]
  simp only [encAfter, hphase, if_neg hraw, hmap]

theorem encAfter_char_of_hit {e : EncState} {c : Byte} {k : Sym} (hphase : e.phase = .collect) (hraw : e.raw ≠ 27#5)
    (hhit : cp c = some k) : encAfter (.encChar c) e =
      (packPush k e).map fun e' => { e' with raw := e.raw + 1#5, n := e.n + 1#5 } := by
  simp only [encAfter, hphase, if_neg hraw, mapC2S_eq_hit_iff.2 hhit]

/-- `ENC.CHAR` below the length limit takes the character: counted, and packed where it has a code point (R204,
R205). -/
theorem EncOpen.char {e : EncState} {ks : List Sym} {raw : Nat} (h : EncOpen e ks raw) (c : Byte) (hraw : raw < 27) :
    ∃ e', encAfter (.encChar c) e = .ok e' ∧ EncOpen e' (ks ++ validSyms [c]) (raw + 1) := by
  have hraw_eq := h.raw_eq
  have hlimit : e.raw ≠ 27#5 := by bv_omega
  have hnext : (e.raw + 1#5).toNat = raw + 1 := by bv_omega
  have hcount := h.count
  have hcount_le := h.count_le
  rcases cp_cases c with ⟨_, hmiss⟩ | ⟨_, k, hhit, hk, _⟩
  · refine ⟨_, encAfter_char_of_miss h.phase hlimit hmiss, ?_⟩
    rw [validSyms_cons_of_none [] hmiss, validSyms_nil, List.append_nil]
    exact ⟨h.phase, hnext, hraw, by omega, h.len_zero, h.count, h.codePoints, ⟨h.packed.1, h.packed.2, h.packed.3,
      h.packed.4⟩⟩
  · obtain ⟨f, hpush, hf⟩ := h.packed.push k (by omega)
    obtain ⟨hphase, _, _, hlen, _⟩ := packPush_frame hpush
    have hcount' : (e.n + 1#5).toNat = (ks ++ [k]).length := by
      rw [List.length_append, List.length_singleton]
      bv_omega
    refine ⟨{ f with raw := e.raw + 1#5, n := e.n + 1#5 }, ?_, ?_⟩
    · rw [encAfter_char_of_hit h.phase hlimit hhit, hpush]
      rfl
    · rw [validSyms_cons_of_some [] hhit, validSyms_nil]
      refine ⟨hphase.trans h.phase, hnext, hraw, by simpa using hcount_le, hlen.trans h.len_zero, hcount', ?_,
        ⟨hf.1, hf.2, hf.3, hf.4⟩⟩
      simp only [List.mem_append, List.mem_singleton]
      rintro k' (hk' | rfl)
      · exact h.codePoints k' hk'
      · exact hk

/-- The 28th character is the fault entry (R206). -/
theorem EncOpen.char_at_limit {e : EncState} {ks : List Sym} (h : EncOpen e ks 27) (c : Byte) :
    encAfter (.encChar c) e = .ok (raiseInputTooLong e) :=
  encAfter_char_at_limit c h.phase (BitVec.eq_of_toNat_eq h.raw_eq)

theorem encAfter_end_of_collect {e : EncState} (hphase : e.phase = .collect) (hwr : e.wr.toNat ≤ 17) :
    encAfter .encEnd e = .ok (encFinished e) := by
  simp only [encAfter, hphase, packFlush_of_wr_le hwr, Except.bind, lenPrepend_eq]
  rfl

/-- `ENC.END` closes the transaction with the payload behind its length byte (R208). -/
theorem EncOpen.finish {e : EncState} {ks : List Sym} {raw : Nat} (h : EncOpen e ks raw) :
    encAfter .encEnd e = .ok (encFinished e) ∧ EncDoneInv (encFinished e) ks := by
  have hlen : (flushWr e).toNat = 1 + dataBytes ks.length := h.packed.toNat_flushWr h.count_le_limit
  refine ⟨encAfter_end_of_collect h.phase (h.packed.wr_le h.count_le_limit), rfl, rfl, ?_, h.count, h.codePoints, ?_,
    rfl, Memory.read?_write_same _ _ _, fun j hj => ?_⟩
  · exact h.count.trans_le h.count_le_limit
  · exact hlen.trans (by rw [← h.count]; rfl)
  · rw [encFinished_read?_of_ne_zero e (by omega)]
    refine h.packed.flushBuf_read? ?_
    have hj' : j < (flushWr e).toNat - 1 := hj
    omega

/-- Every ENC command goes on from a channel with the invariant and keeps it (R45, R63). -/
theorem EncInv.encAfter {e : EncState} (hinv : EncInv e) (i : Instr) :
    ∃ e', encAfter i e = .ok e' ∧ EncInv e' := by
  by_cases hstart : i = .encStart
  · subst hstart
    exact ⟨_, rfl, (EncOpen.cleared e.buf).encInv hinv.buf_wf⟩
  by_cases hphase : e.phase = .collect
  · obtain ⟨ks, hopen⟩ := hinv.exists_open hphase
    cases i with
    | encStart => exact absurd rfl hstart
    | encChar c =>
      by_cases hraw : e.raw.toNat < 27
      · obtain ⟨e', hafter, hopen'⟩ := hopen.char c hraw
        exact ⟨e', hafter, hopen'.encInv (encAfter_wf hafter hinv.buf_wf)⟩
      · have hlimit : e.raw.toNat = 27 := le_antisymm hopen.raw_le (Nat.not_lt.1 hraw)
        rw [hlimit] at hopen
        exact ⟨_, hopen.char_at_limit c, (encFaultInv_raiseInputTooLong e).encInv rfl hinv.buf_wf⟩
    | encEnd =>
      obtain ⟨hafter, hdone⟩ := hopen.finish
      exact ⟨_, hafter, hdone.encInv rfl hinv.n_le_raw hinv.raw_le (encAfter_wf hafter hinv.buf_wf)⟩
    | _ => exact ⟨e, rfl, hinv⟩
  · exact ⟨e, encAfter_of_not_collect hphase hstart, hinv⟩

end Sys2Proof.Machine
end

section
/-!
SUPPORT. The bit unpacker as cutting of a stream (spec/43_bit_unpack_decoder.md R182, R185): what its registers say of
the data bytes loaded so far, and the windows a load reads.
-/
namespace Sys2Proof.Machine
open Sys2Proof

/-- The unpacker after the data bytes `data`: the windows owed that lie wholly in them are read, and what no window has
consumed is pending, or dropped with the last window (R182, R183). -/
structure Unpacked (d : DecState) (data : List Byte) : Prop where
  i_eq : d.i.toNat = min d.n.toNat (8 * data.length / 5)
  allRead : d.i = d.n → d.nbits = 0#3 ∧ d.acc = 0#4
  owed : d.i < d.n → DecDataInv d data

/-- With nothing loaded nothing is read and nothing is pending. -/
theorem Unpacked.nil {d : DecState} (hi : d.i = 0#8) (hnbits : d.nbits = 0#3) (hacc : d.acc = 0#4) :
    Unpacked d [] :=
  ⟨by simp [hi], fun _ => ⟨hnbits, hacc⟩, fun _ => ⟨by simp [hi], by simp [hi, hnbits], by simp [hacc]⟩⟩

/-- `Unpacked` speaks of the unpacker's registers and the count only. -/
theorem Unpacked.congr {d d' : DecState} {data : List Byte} (h : Unpacked d data) (hn : d'.n = d.n) (hi : d'.i = d.i)
    (hacc : d'.acc = d.acc) (hnbits : d'.nbits = d.nbits) : Unpacked d' data := by
  refine ⟨by rw [hi, hn, h.i_eq], fun hall => ?_, fun howed => ?_⟩
  · rw [hnbits, hacc]
    exact h.allRead (by rw [← hi, hall, hn])
  · obtain ⟨hi_eq, hnbits_eq, hpending⟩ := h.owed (by rwa [← hi, ← hn])
    exact ⟨by rw [hi, hi_eq], by rw [hnbits, hi, hnbits_eq], by rw [hacc, hi, hpending]⟩

/-! ## Windows of a stream -/

/-- A window cut from a part of a stream with at least five bits after its first `a`. -/
theorem uint_drop_take_five {s : List Bool} {a : Nat} (h : a + 5 ≤ s.length) :
    uint ((s.drop a).take 5) = uint s / 2 ^ (s.length - (a + 5)) % 2 ^ 5 := by
  have hlen : (s.take (a + 5)).length - a = 5 := by rw [List.length_take]; omega
  have hcut := uint_drop (s.take (a + 5)) a
  rwa [hlen, uint_take, List.drop_take, Nat.add_sub_cancel_left] at hcut

/-- The windows that lie wholly in the data do not change when a byte is added (R15). -/
theorem streamWindows_concat {data : List Byte} (b : Byte) {m : Nat} (hm : m ≤ 8 * data.length / 5) :
    (List.range m).map (streamWindow (byteStream (data ++ [b]))) =
      (List.range m).map (streamWindow (byteStream data)) := by
  refine List.map_congr_left fun j hj => ?_
  have hj := List.mem_range.1 hj
  refine streamWindow_congr (m := 8 * data.length) ?_ (by omega)
  rw [byteStream_concat, List.take_append_of_le_length (by simp)]

/-- A byte that comes when every window of the count is read gives no window. -/
theorem unpack5_concat_of_all_read {data : List Byte} (b : Byte) {n : Nat} (h : n ≤ 8 * data.length / 5) :
    unpack5 (data ++ [b]) n = unpack5 data n := by
  have hlen : (data ++ [b]).length = data.length + 1 := List.length_append
  rw [unpack5_eq, unpack5_eq, Nat.min_eq_left h, Nat.min_eq_left (by omega), streamWindows_concat b h]

/-! ## `UNPACK.LOAD` -/

section
variable {d : DecState} {data : List Byte}

/-- The pending bits and the new byte, as the part of the longer stream that no window has consumed. -/
theorem DecDataInv.pending_concat (h : DecDataInv d data) (b : Byte) :
    uint ((byteStream (data ++ [b])).drop (5 * d.i.toNat)) = d.acc.toNat * 256 + b.toNat := by
  have hi := h.i_eq
  rw [uint_drop_concat_byte data b (by omega), h.pending]

theorem DecDataInv.pending_concat_length (h : DecDataInv d data) (b : Byte) :
    ((byteStream (data ++ [b])).drop (5 * d.i.toNat)).length = d.nbits.toNat + 8 := by
  have hi := h.i_eq
  have hnbits := h.nbits_eq
  rw [List.length_drop, byteStream_length, List.length_append, List.length_singleton]
  omega

/-- The windows that a load can read: the `a`-th bit and the next four of the bits pending and new. -/
theorem DecDataInv.streamWindow_concat (h : DecDataInv d data) (b : Byte) {j : Nat}
    (hfit : 5 * j + 5 ≤ d.nbits.toNat + 8) :
    streamWindow (byteStream (data ++ [b])) (d.i.toNat + j) =
      field (d.acc ++ b) (d.nbits.toNat + 8 - (5 * j + 5)) 5 := by
  apply BitVec.eq_of_toNat_eq
  rw [streamWindow, BitVec.toNat_ofNat, Nat.mul_add, ← List.drop_drop,
    uint_drop_take_five (by rw [h.pending_concat_length]; exact hfit), h.pending_concat, h.pending_concat_length,
    Nat.mod_mod, toNat_field, toNat_acc_byte]

/-- What is pending after `j` windows. -/
theorem DecDataInv.residue_concat (h : DecDataInv d data) (b : Byte) (j : Nat) :
    uint ((byteStream (data ++ [b])).drop (5 * (d.i.toNat + j))) =
      (d.acc.toNat * 256 + b.toNat) % 2 ^ (d.nbits.toNat + 8 - 5 * j) := by
  rw [Nat.mul_add, ← List.drop_drop, uint_drop, h.pending_concat, h.pending_concat_length]

/-- The end of a load that has read `j` windows, as many as it could. -/
theorem DecDataInv.unpackKeep (h : DecDataInv d data) (b : Byte) {j m : Nat} {i' : BitVec 8}
    (hm : m = d.nbits.toNat + 8 - 5 * j) (hi' : i'.toNat = d.i.toNat + j) (hle : i'.toNat ≤ d.n.toNat)
    (hmax : i' = d.n ∨ m < 5) (hfit : 5 * j ≤ d.nbits.toNat + 8) :
    Unpacked (unpackKeep (d.acc ++ b) m i' d) (data ++ [b]) := by
  have hi := h.i_eq
  have hnbits := h.nbits_eq
  have hlen : (data ++ [b]).length = data.length + 1 := List.length_append
  have hread : i'.toNat = min d.n.toNat (8 * (data ++ [b]).length / 5) := by
    rcases hmax with rfl | hmax <;> omega
  rcases unpackKeep_cases (d.acc ++ b) m i' d with ⟨hlast, hkeep⟩ | ⟨hmore, hkeep⟩ <;> rw [hkeep]
  · exact ⟨hread, fun _ => ⟨rfl, rfl⟩, fun howed => by simp [hlast] at howed⟩
  · have hsmall : m < 5 := hmax.resolve_left hmore
    refine ⟨hread, fun hlast => absurd hlast hmore, fun _ => ⟨?_, ?_, ?_⟩⟩
    · rw [DecState.setUnpack_i]
      omega
    · rw [DecState.setUnpack_nbits, DecState.setUnpack_i, BitVec.toNat_ofNat]
      omega
    · rw [DecState.setUnpack_acc, DecState.setUnpack_i, hi', h.residue_concat, toNat_lowBits 4 _ (by omega),
        toNat_acc_byte, hm]

/-- A load with a window owed takes the byte and reads the windows it completes (R182, R185). -/
theorem Unpacked.load (h : Unpacked d data) (howed : d.i < d.n) (b : Byte) :
    Unpacked (unpackLoad b d).1 (data ++ [b]) ∧
      unpack5 (data ++ [b]) d.n.toNat = unpack5 data d.n.toNat ++ (unpackLoad b d).2 := by
  have hdata := h.owed howed
  have hi := hdata.i_eq
  have hnbits := hdata.nbits_eq
  have hlt : d.i.toNat < d.n.toNat := howed
  have hlen : (data ++ [b]).length = data.length + 1 := List.length_append
  have hold : unpack5 data d.n.toNat =
      (List.range d.i.toNat).map (streamWindow (byteStream (data ++ [b]))) := by
    rw [streamWindows_concat b hi.le, unpack5_eq, ← h.i_eq]
  have hfirst : streamWindow (byteStream (data ++ [b])) d.i.toNat = field (d.acc ++ b) (d.nbits.toNat + 3) 5 :=
    hdata.streamWindow_concat b (j := 0) (by omega)
  have hsucc : (d.i + 1#8).toNat = d.i.toNat + 1 := by bv_omega
  have hcases := unpackLoad_cases b d
  rw [succ_lt_iff_of_lt howed] at hcases
  rcases hcases with ⟨⟨hpending, htwo⟩, hload⟩ | ⟨hone, hload⟩ <;> rw [hload]
  · have hsucc' : (d.i + 1#8 + 1#8).toNat = d.i.toNat + 2 := by bv_omega
    have hsecond : streamWindow (byteStream (data ++ [b])) (d.i.toNat + 1) =
        field (d.acc ++ b) (d.nbits.toNat - 2) 5 := by
      rw [hdata.streamWindow_concat b (by omega), show d.nbits.toNat + 8 - (5 * 1 + 5) = d.nbits.toNat - 2 by omega]
    refine ⟨hdata.unpackKeep b (j := 2) (by omega) hsucc' (by omega) (by omega) (by omega), ?_⟩
    rw [hold, unpack5_eq, show min d.n.toNat (8 * (data ++ [b]).length / 5) = d.i.toNat + 1 + 1 by omega,
      List.range_succ, List.range_succ, List.map_append, List.map_append, List.append_assoc, List.map_singleton,
      List.map_singleton, hfirst, hsecond]
    rfl
  · have hmax : d.i + 1#8 = d.n ∨ d.nbits.toNat + 3 < 5 := by bv_omega
    refine ⟨hdata.unpackKeep b (j := 1) (by omega) hsucc (by omega) hmax (by omega), ?_⟩
    rw [hold, unpack5_eq, show min d.n.toNat (8 * (data ++ [b]).length / 5) = d.i.toNat + 1 by omega,
      List.range_succ, List.map_append, List.map_singleton, hfirst]

/-- A byte that comes when no window is owed changes nothing (R185). -/
theorem Unpacked.skip (h : Unpacked d data) (hall : ¬ d.i < d.n) (b : Byte) :
    Unpacked d (data ++ [b]) ∧ unpack5 (data ++ [b]) d.n.toNat = unpack5 data d.n.toNat := by
  have hi := h.i_eq
  have hle : d.n.toNat ≤ d.i.toNat := by bv_omega
  have hlen : (data ++ [b]).length = data.length + 1 := List.length_append
  exact ⟨⟨by omega, h.allRead, fun howed => absurd howed hall⟩, unpack5_concat_of_all_read b (by omega)⟩

theorem unpackLoad_n (b : Byte) (d : DecState) : (unpackLoad b d).1.n = d.n := by
  obtain ⟨acc, nbits, i, h⟩ := unpackLoad_frame b d
  rw [h, DecState.setUnpack_n]

/-- Loads of several bytes, each only while windows are owed (R185). -/
theorem Unpacked.loadAll (h : Unpacked d data) (bs : List Byte) :
    (∃ acc nbits i, (unpackAll bs d).1 = d.setUnpack acc nbits i) ∧ Unpacked (unpackAll bs d).1 (data ++ bs) ∧
      unpack5 (data ++ bs) d.n.toNat = unpack5 data d.n.toNat ++ (unpackAll bs d).2 := by
  induction bs generalizing d data with
  | nil => exact ⟨⟨_, _, _, rfl⟩, by rwa [List.append_nil], by simp [unpackAll]⟩
  | cons b bs ih =>
    rw [List.append_cons, unpackAll]
    by_cases howed : d.i < d.n
    · obtain ⟨hnext, hwindows⟩ := h.load howed b
      obtain ⟨⟨acc, nbits, i, hframe⟩, hall, hwindows'⟩ := ih hnext
      obtain ⟨acc', nbits', i', hframe'⟩ := unpackLoad_frame b d
      rw [unpackLoad_n] at hwindows'
      rw [if_pos howed]
      exact ⟨⟨acc, nbits, i, by rw [hframe, hframe']; rfl⟩, hall,
        by rw [hwindows', hwindows, List.append_assoc]⟩
    · obtain ⟨hnext, hwindows⟩ := h.skip howed b
      obtain ⟨hframe, hall, hwindows'⟩ := ih hnext
      rw [if_neg howed]
      exact ⟨hframe, hall, by rw [hwindows', hwindows]⟩

end

end Sys2Proof.Machine
end

section
/-!
PROOFS. The bit unpacker (spec/43_bit_unpack_decoder.md): the whole unit.
-/
namespace Sys2Proof.Proofs
open Sys2Proof Sys2Proof.Machine

/-- Settles O10: the loads from a cleared unpacker; the loads write the unpacker's registers only, so `UNPACK.DROP`
after them shows what the two opening operations have set. -/
theorem unpackUnitComputesUnpack5 : Obligations.UnpackUnitComputesUnpack5 := by
  intro n data d
  have hstart : Unpacked (unpackClear (lenExtract n d)) [] := .nil rfl rfl rfl
  obtain ⟨⟨acc, nbits, i, hframe⟩, hall, hwindows⟩ := hstart.loadAll data
  have hread : (unpackAll data (unpackClear (lenExtract n d))).1.i.toNat = min n.toNat (8 * data.length / 5) := by
    have hi := hall.i_eq
    have hn : (unpackAll data (unpackClear (lenExtract n d))).1.n = n := by rw [hframe]; rfl
    rwa [hn] at hi
  refine ⟨rfl, ?_, hread, ?_, ?_⟩
  · have hnone : unpack5 [] n.toNat = [] := by simp [unpack5_eq]
    have hwindows : unpack5 data n.toNat = unpack5 [] n.toNat ++ _ := hwindows
    rw [hwindows, hnone, List.nil_append]
  · simp [unpack5_eq]
  · rw [hframe] at hread ⊢
    rw [DecState.setUnpack_i] at hread
    rw [← hread, BitVec.ofNat_toNat, BitVec.setWidth_eq]
    rfl

end Sys2Proof.Proofs
end

section
/-!
SUPPORT. The DEC channel (spec/45_decode_channel.md): its lanes after any command (R236), and that every command keeps
the invariant of spec/10_state.md R46.
-/
namespace Sys2Proof.Machine
open Sys2Proof

/-! ## The lanes -/

/-- What `MAP.S2C` gives a lane: a character of the alphabet, or an empty lane (R134). -/
theorem mapS2C_lane (w : Sym) : if (mapS2C w).1 then (mapS2C w).2 ∈ alphabet else (mapS2C w).2 = 0x00#8 := by
  have table : ∀ w : Sym, if (mapS2C w).1 then (mapS2C w).2 ∈ alphabet else (mapS2C w).2 = 0x00#8 := by decide
  exact table w

theorem lanesInv_writeLanes (ws : List Sym) (d : DecState) : LanesInv (writeLanes (ws.map mapS2C) d) :=
  match ws with
  | [] => ⟨rfl, rfl⟩
  | [w] => ⟨mapS2C_lane w, rfl⟩
  | w :: w' :: _ => ⟨mapS2C_lane w, mapS2C_lane w'⟩

/-- Any command of the channel writes both lanes (R236). -/
theorem lanesInv_decAfter (i : Instr) (d : DecState) : LanesInv (decAfter i d) := by
  have hempty : ∀ d, LanesInv (writeLanes [] d) := lanesInv_writeLanes []
  cases i with
  | decStart => exact ⟨rfl, rfl⟩
  | decByte b =>
    cases hphase : d.phase with
    | len => simp only [decAfter, hphase]; exact hempty _
    | data =>
      simp only [decAfter, hphase]
      split
      · exact lanesInv_writeLanes _ _
      · exact hempty _
    | done => simp only [decAfter, hphase]; exact hempty _
  | decEnd => cases hphase : d.phase <;> simp only [decAfter, hphase] <;> exact hempty _
  | _ => exact hempty d

/-- The lanes of R46 are those of R23 and R236. -/
theorem LanesInv.empty {d : DecState} (h : LanesInv d) :
    (d.v0 = false → d.c0 = 0x00#8) ∧ (d.v1 = false → d.c1 = 0x00#8) := by
  obtain ⟨h0, h1⟩ := h
  exact ⟨fun hv => by simpa [hv] using h0, fun hv => by simpa [hv] using h1⟩

/-! ## `DEC.BYTE` and `DEC.END` -/

/-- With no window owed and in DONE a byte clears the lanes only (R234, last branch). -/
theorem decAfter_byte_ignored (b : Byte) {d : DecState} (h : (d.phase = .data ∧ ¬ d.i < d.n) ∨ d.phase = .done) :
    decAfter (.decByte b) d = d.setLanes false 0x00#8 false 0x00#8 := by
  rcases h with ⟨hphase, hall⟩ | hphase
  · simp only [decAfter, hphase, if_neg hall, writeLanes_nil]
  · simp only [decAfter, hphase, writeLanes_nil]

/-! ## The invariant of R46 -/

theorem Unpacked.i_le_n {d : DecState} {data : List Byte} (h : Unpacked d data) : d.i.toNat ≤ d.n.toNat :=
  h.i_eq.trans_le (Nat.min_le_left _ _)

/-- Fewer than five bits are pending, and `dec_acc` holds no more than them (R186). -/
theorem Unpacked.residue_bounds {d : DecState} {data : List Byte} (h : Unpacked d data) :
    d.nbits.toNat ≤ 4 ∧ d.acc.toNat < 2 ^ d.nbits.toNat := by
  by_cases hall : d.i = d.n
  · obtain ⟨hnbits, hacc⟩ := h.allRead hall
    simp [hnbits, hacc]
  · have hle := h.i_le_n
    obtain ⟨hi, hnbits, hpending⟩ := h.owed (by bv_omega)
    have hlt := uint_lt ((byteStream data).drop (5 * d.i.toNat))
    rw [List.length_drop, byteStream_length, ← hpending, ← hnbits] at hlt
    exact ⟨by omega, hlt⟩

/-- In DATA the unpacker's state and the lanes make the channel's invariant. -/
theorem Unpacked.decInv {d : DecState} {data : List Byte} (h : Unpacked d data) (hphase : d.phase = .data)
    (hlanes : LanesInv d) : DecInv d := by
  obtain ⟨hnbits, hacc⟩ := h.residue_bounds
  exact ⟨h.i_le_n, hnbits, hacc, hlanes.empty.1, hlanes.empty.2, by simp [hphase], fun _ => h.allRead,
    fun _ howed => ⟨data, h.owed howed⟩, by simp [hphase]⟩

theorem decInv_cleared : DecInv DecState.cleared :=
  ⟨by decide, by decide, by decide, by simp, by simp, by simp, nofun, nofun, nofun⟩

/-- A lane write keeps R46. -/
theorem DecInv.clearLanes {d : DecState} (h : DecInv d) : DecInv (d.setLanes false 0x00#8 false 0x00#8) :=
  ⟨h.i_le_n, h.nbits_le, h.acc_lt, fun _ => rfl, fun _ => rfl, h.len, h.dataAllRead,
    fun hphase howed => (h.dataOwed hphase howed).imp fun _ hdata => ⟨hdata.i_eq, hdata.nbits_eq, hdata.pending⟩,
    h.done⟩

/-- The unpacker's state in DATA with a window owed. -/
theorem DecInv.exists_unpacked {d : DecState} (h : DecInv d) (hphase : d.phase = .data) (howed : d.i < d.n) :
    ∃ data, Unpacked d data := by
  obtain ⟨data, hdata⟩ := h.dataOwed hphase howed
  have hi := hdata.i_eq
  exact ⟨data, by bv_omega, h.dataAllRead hphase, fun _ => hdata⟩

/-- `DEC.END` outside DONE keeps R46: it drops the residue. -/
theorem DecInv.finish {d : DecState} (h : DecInv d) :
    DecInv (({ unpackDrop d with phase := .done } : DecState).setLanes false 0x00#8 false 0x00#8) :=
  ⟨h.i_le_n, by simp [unpackDrop], by simp [unpackDrop], fun _ => rfl, fun _ => rfl, nofun, nofun, nofun,
    fun _ => ⟨rfl, rfl⟩⟩

theorem unpackLoad_phase (b : Byte) (d : DecState) : (unpackLoad b d).1.phase = d.phase := by
  obtain ⟨acc, nbits, i, h⟩ := unpackLoad_frame b d
  rw [h, DecState.setUnpack_phase]

/-- A lane write leaves the unpacker as it is. -/
theorem Unpacked.writeLanes {d : DecState} {data : List Byte} (h : Unpacked d data) (ls : List (Bool × Byte)) :
    Unpacked (writeLanes ls d) data := by
  obtain ⟨_, hn, hi, hacc, hnbits⟩ := writeLanes_frame ls d
  exact h.congr hn hi hacc hnbits

/-- The length byte opens the data bytes with nothing loaded (R174). -/
theorem unpacked_lenExtract (b : Byte) {d : DecState} (hnbits : d.nbits = 0#3) (hacc : d.acc = 0#4) :
    Unpacked (lenExtract b d) [] :=
  .nil rfl hnbits hacc

/-- Every DEC command keeps R46. -/
theorem DecInv.decAfter {d : DecState} (h : DecInv d) (i : Instr) : DecInv (decAfter i d) := by
  cases i with
  | decStart => exact decInv_cleared
  | decByte b =>
    have hlanes := lanesInv_decAfter (.decByte b) d
    cases hphase : d.phase with
    | len =>
      obtain ⟨_, _, hnbits, hacc⟩ := h.len hphase
      rw [decAfter_byte_of_len b hphase] at hlanes ⊢
      exact ((unpacked_lenExtract b hnbits hacc).writeLanes []).decInv rfl hlanes
    | data =>
      by_cases howed : d.i < d.n
      · obtain ⟨data, hdata⟩ := h.exists_unpacked hphase howed
        rw [decAfter_byte_of_owed b hphase howed] at hlanes ⊢
        refine ((hdata.load howed b).1.writeLanes _).decInv ?_ hlanes
        rw [(writeLanes_frame _ _).1, unpackLoad_phase, hphase]
      · rw [decAfter_byte_ignored b (.inl ⟨hphase, howed⟩)]
        exact h.clearLanes
    | done =>
      rw [decAfter_byte_ignored b (.inr hphase)]
      exact h.clearLanes
  | decEnd =>
    by_cases hphase : d.phase = .done
    · rw [decAfter_end_of_done hphase]
      exact h.clearLanes
    · rw [decAfter_end_of_not_done hphase]
      exact h.finish
  | _ => exact h.clearLanes

/-! ## Both channels -/

theorem inv_reset : Inv State.reset :=
  ⟨(EncOpen.cleared []).encInv rfl, decInv_cleared, ⟨rfl, rfl⟩⟩

/-- From a state with the invariant a step answers a next state, and keeps it. -/
theorem Inv.step {s : State} (h : Inv s) : ∃ t, step s = .next t ∧ Inv t := by
  obtain ⟨henc, hdec, _⟩ := h
  cases hrst : s.ports.rst with
  | true =>
    exact ⟨_, step_of_reset hrst, (EncOpen.cleared s.enc.buf).encInv henc.buf_wf, decInv_cleared, ⟨rfl, rfl⟩⟩
  | false =>
    obtain ⟨e, hafter, he⟩ := henc.encAfter (encCommandAt s.ports)
    exact ⟨_, step_of_encAfter_ok hrst hafter, he, hdec.decAfter _, lanesInv_decAfter _ _⟩

theorem Inv.steps {s : State} (h : Inv s) (k : Nat) : ∃ t, steps k s = .next t ∧ Inv t := by
  induction k generalizing s with
  | zero => exact ⟨s, rfl, h⟩
  | succ k ih =>
    obtain ⟨u, hstep, hu⟩ := h.step
    obtain ⟨t, hsteps, ht⟩ := ih hu
    exact ⟨t, by rw [steps_succ_of_next k hstep, hsteps], ht⟩

end Sys2Proof.Machine
end

section
/-!
PROOFS. The lanes (spec/45_decode_channel.md R236), an ignored byte (R234), and the invariants of spec/10_state.md.
-/
namespace Sys2Proof.Proofs
open Sys2Proof Sys2Proof.Machine

/-- Settles O23: a DEC command writes its channel only, and here only the lanes. -/
theorem byteIsIgnoredWhenNoWindowIsOwed : Obligations.ByteIsIgnoredWhenNoWindowIsOwed := by
  intro s b h
  rw [exec_dec_next s rfl, decAfter_byte_ignored b h]
  rfl

/-- Settles O26: every command of the channel writes the lanes from looked-up windows, or clears them. -/
theorem emittedCodesAreAlphabetCodes : Obligations.EmittedCodesAreAlphabetCodes := by
  intro i s t hi h
  rw [exec_dec_next s hi] at h
  cases h
  exact lanesInv_decAfter i s.dec

/-- Settles O39: the cleared channels with nothing taken. -/
theorem resetKeepsTheInvariant : Obligations.ResetKeepsTheInvariant := inv_reset

/-- Settles O40: a step is a reset or one command on each channel, and each of these keeps that channel's invariant. -/
theorem everyStepKeepsTheInvariant : Obligations.EveryStepKeepsTheInvariant := by
  intro s t hinv hstep
  obtain ⟨u, hstep', hu⟩ := hinv.step
  rw [hstep] at hstep'
  cases hstep'
  exact hu

/-- Settles O41: the invariant keeps `enc_wr` within the buffer where a command writes, so no command stops. -/
theorem noStepStops : Obligations.NoStepStops := by
  intro s hinv
  obtain ⟨t, hstep, _⟩ := hinv.step
  exact ⟨t, hstep⟩

/-- Settles O42: what the host drives is not in the invariant, so the reset state keeps it under any script. -/
theorem everyRunFromResetIsSafe : Obligations.EveryRunFromResetIsSafe := by
  intro ps k
  have hinv : Inv (drive ps State.reset) := ⟨inv_reset.enc, inv_reset.dec, inv_reset.lanes⟩
  exact hinv.steps k

end Sys2Proof.Proofs
end

section
/-!
SUPPORT. A run of samples as a run of each channel on its own ports (spec/10_state.md R20, R21): the channels share
nothing, so a run of the machine is the pair of the two.
-/
namespace Sys2Proof.Machine
open Sys2Proof

/-- What one sample makes of the ENC channel. -/
def encStep (p : InPorts) (e : EncState) : Except Fault EncState :=
  if p.rst then .ok (EncState.cleared e.buf) else encAfter (encCommandAt p) e

/-- What one sample makes of the DEC channel. -/
def decStep (p : InPorts) (d : DecState) : DecState :=
  if p.rst then DecState.cleared else decAfter (decCommandAt p) d

theorem encStep_of_not_rst {p : InPorts} (h : p.rst = false) (e : EncState) :
    encStep p e = encAfter (encCommandAt p) e := by
  simp [encStep, h]

theorem decStep_of_not_rst {p : InPorts} (h : p.rst = false) (d : DecState) :
    decStep p d = decAfter (decCommandAt p) d := by
  simp [decStep, h]

/-- What the samples make of the ENC channel, up to the first that stops. -/
def encRun : List InPorts → EncState → Except Fault EncState
  | [], e => .ok e
  | p :: ps, e => (encStep p e).bind (encRun ps)

/-- What the samples make of the DEC channel. -/
def decRun (ps : List InPorts) (d : DecState) : DecState := ps.foldl (fun d p => decStep p d) d

/-- The characters on the lanes after each of the samples, in order. -/
def decOutput : List InPorts → DecState → List Byte
  | [], _ => []
  | p :: ps, d => laneChars (decStep p d) ++ decOutput ps (decStep p d)

@[simp] theorem encRun_nil (e : EncState) : encRun [] e = .ok e := rfl

@[simp] theorem decRun_nil (d : DecState) : decRun [] d = d := rfl

@[simp] theorem decRun_cons (p : InPorts) (ps : List InPorts) (d : DecState) :
    decRun (p :: ps) d = decRun ps (decStep p d) := rfl

theorem encRun_cons_of_ok {p : InPorts} {e f : EncState} (ps : List InPorts) (h : encStep p e = .ok f) :
    encRun (p :: ps) e = encRun ps f := by
  rw [encRun, h]
  rfl

theorem encRun_cons_inv {p : InPorts} {ps : List InPorts} {e e' : EncState} (h : encRun (p :: ps) e = .ok e') :
    ∃ f, encStep p e = .ok f ∧ encRun ps f = .ok e' :=
  except_bind_ok h

theorem encRun_append_of_ok {ps : List InPorts} {e f : EncState} (qs : List InPorts) (h : encRun ps e = .ok f) :
    encRun (ps ++ qs) e = encRun qs f := by
  induction ps generalizing e with
  | nil => cases h; rfl
  | cons p ps ih =>
    obtain ⟨g, hg, hrun⟩ := encRun_cons_inv h
    rw [List.cons_append, encRun_cons_of_ok _ hg, ih hrun]

theorem decRun_append (ps qs : List InPorts) (d : DecState) : decRun (ps ++ qs) d = decRun qs (decRun ps d) :=
  List.foldl_append

theorem decOutput_append (ps qs : List InPorts) (d : DecState) :
    decOutput (ps ++ qs) d = decOutput ps d ++ decOutput qs (decRun ps d) := by
  induction ps generalizing d with
  | nil => rfl
  | cons p ps ih => rw [List.cons_append, decOutput, decOutput, ih, List.append_assoc, decRun_cons]

/-! ## The machine's step and run -/

/-- A step is one step of each channel. -/
theorem step_drive_cons_eq (p : InPorts) (ps : List InPorts) (s : State) :
    step (drive (p :: ps) s) =
      match encStep p s.enc with
      | .ok e => .next (drive ps ((s.setEnc e).setDec (decStep p s.dec)))
      | .error f => .fault f := by
  rw [step_eq, encStep, decStep]
  cases hrst : p.rst with
  | true => simp only [drive_cons_ports, hrst, if_true]; rfl
  | false =>
    simp only [drive_cons_ports, drive_enc, hrst]
    cases encAfter (encCommandAt p) s.enc <;> rfl

theorem step_drive_cons_of_ok {p : InPorts} {s : State} {e : EncState} (ps : List InPorts)
    (h : encStep p s.enc = .ok e) :
    step (drive (p :: ps) s) = .next (drive ps ((s.setEnc e).setDec (decStep p s.dec))) := by
  rw [step_drive_cons_eq, h]

/-- A run of the machine answers a next state where the ENC channel's run does, and is then the two channels' runs. -/
theorem steps_drive_of_ok {ps : List InPorts} {s : State} {e : EncState} (qs : List InPorts)
    (h : encRun ps s.enc = .ok e) :
    steps ps.length (drive (ps ++ qs) s) = .next (drive qs ((s.setEnc e).setDec (decRun ps s.dec))) := by
  induction ps generalizing s with
  | nil => cases h; rfl
  | cons p ps ih =>
    obtain ⟨f, hf, hrun⟩ := encRun_cons_inv h
    have hrest := ih (s := (s.setEnc f).setDec (decStep p s.dec)) hrun
    rw [List.cons_append, List.length_cons, steps_succ_of_next _ (step_drive_cons_of_ok _ hf), hrest]
    rfl

theorem step_drive_inv {p : InPorts} {ps : List InPorts} {s t : State} (h : step (drive (p :: ps) s) = .next t) :
    encStep p s.enc = .ok t.enc ∧ t.dec = decStep p s.dec := by
  rw [step_drive_cons_eq] at h
  cases hp : encStep p s.enc with
  | ok e => rw [hp] at h; cases h; exact ⟨rfl, rfl⟩
  | error f => rw [hp] at h; cases h

theorem steps_drive_inv {ps : List InPorts} {s t : State} (h : steps ps.length (drive ps s) = .next t) :
    encRun ps s.enc = .ok t.enc ∧ t.dec = decRun ps s.dec := by
  induction ps generalizing s with
  | nil => cases h; exact ⟨rfl, rfl⟩
  | cons p ps ih =>
    obtain ⟨u, hstep, hsteps⟩ := steps_succ_inv h
    obtain ⟨hp, hd⟩ := step_drive_inv hstep
    rw [step_drive_cons hstep] at hsteps
    obtain ⟨henc, hdec⟩ := ih hsteps
    exact ⟨by rw [encRun_cons_of_ok _ hp, henc], by rw [hdec, hd, decRun_cons]⟩

/-- The output of a run is the DEC channel's, where no step stops (R236). -/
theorem laneOutput_drive_of_ok {ps : List InPorts} {s : State} {e : EncState} (qs : List InPorts)
    (h : encRun ps s.enc = .ok e) : laneOutput ps.length (drive (ps ++ qs) s) = decOutput ps s.dec := by
  induction ps generalizing s with
  | nil => rfl
  | cons p ps ih =>
    obtain ⟨f, hf, hrun⟩ := encRun_cons_inv h
    rw [List.cons_append, List.length_cons, laneOutput_succ_of_next _ (step_drive_cons_of_ok _ hf),
      ih (s := (s.setEnc f).setDec (decStep p s.dec)) hrun]
    rfl

/-! ## Which ports a channel reads -/

theorem encStep_congr {p q : InPorts} (h : encSide p = encSide q) : encStep p = encStep q := by
  obtain ⟨hrst, hcmd, hchar⟩ : p.rst = q.rst ∧ p.encCmd = q.encCmd ∧ p.encChar = q.encChar := by
    simpa [encSide] using h
  funext e
  rw [encStep, encStep, encCommandAt, encCommandAt, hrst, hcmd, hchar]

theorem decStep_congr {p q : InPorts} (h : decSide p = decSide q) : decStep p = decStep q := by
  obtain ⟨hrst, hcmd, hbyte⟩ : p.rst = q.rst ∧ p.decCmd = q.decCmd ∧ p.decByte = q.decByte := by
    simpa [decSide] using h
  funext d
  rw [decStep, decStep, decCommandAt, decCommandAt, hrst, hcmd, hbyte]

theorem encRun_congr : ∀ {ps qs : List InPorts}, ps.map encSide = qs.map encSide → encRun ps = encRun qs
  | [], [], _ => rfl
  | p :: ps, q :: qs, h => by
    obtain ⟨hp, hps⟩ := List.cons.inj h
    funext e
    rw [encRun, encRun, encStep_congr hp, encRun_congr hps]

theorem decRun_congr : ∀ {ps qs : List InPorts}, ps.map decSide = qs.map decSide → decRun ps = decRun qs
  | [], [], _ => rfl
  | p :: ps, q :: qs, h => by
    obtain ⟨hp, hps⟩ := List.cons.inj h
    funext d
    rw [decRun_cons, decRun_cons, decStep_congr hp, decRun_congr hps]

/-! ## Runs from a state with the ENC invariant -/

theorem EncInv.encStep {e : EncState} (h : EncInv e) (p : InPorts) : ∃ e', encStep p e = .ok e' ∧ EncInv e' := by
  unfold Machine.encStep
  split
  · exact ⟨_, rfl, (EncOpen.cleared e.buf).encInv h.buf_wf⟩
  · exact h.encAfter _

/-- Whatever ENC traffic there is, it does not stop a run from a state with the invariant (R63). -/
theorem EncInv.encRun {e : EncState} (h : EncInv e) (ps : List InPorts) :
    ∃ e', encRun ps e = .ok e' ∧ EncInv e' := by
  induction ps generalizing e with
  | nil => exact ⟨e, rfl, h⟩
  | cons p ps ih =>
    obtain ⟨f, hf, hinv⟩ := h.encStep p
    obtain ⟨e', he', hinv'⟩ := ih hinv
    exact ⟨e', by rw [encRun_cons_of_ok ps hf, he'], hinv'⟩

end Sys2Proof.Machine
end

section
/-!
SUPPORT. Two runs of the ENC channel over different buffers (spec/10_state.md R48): what an earlier transaction left in
`enc_buf` lies at addresses that are written again before they can be read.
-/
namespace Sys2Proof.Machine
open Sys2Proof

/-- The same scalar registers over two buffers that agree where a byte of this transaction lies: on the data bytes while
collecting, on the whole payload in DONE. -/
structure SameTransaction (e e' : EncState) : Prop where
  registers : e' = e.setBuf e'.buf
  stored : e.phase = .collect → ∀ a, a ≠ 0 → a < e.wr.toNat → e'.buf.read? a = e.buf.read? a
  payload : e.phase = .done → ∀ a, a < e.len.toNat → e'.buf.read? a = e.buf.read? a

theorem SameTransaction.cleared (m m' : Memory) :
    SameTransaction (EncState.cleared m) (EncState.cleared m') := by
  refine ⟨rfl, fun _ a hpos hlt => ?_, nofun⟩
  have hlt : a < 1 := hlt
  omega

/-- Bytes that agree below an address agree below the next one after the same write there. -/
theorem read?_write_agree {m m' : Memory} {w : Nat} (v : Byte) {a : Nat}
    (h : a < w → m'.read? a = m.read? a) (ha : a < w + 1) : (m'.write w v).read? a = (m.write w v).read? a := by
  rw [Memory.read?_write, Memory.read?_write]
  split
  · rfl
  · exact h (by omega)

/-- After a write at a location of the buffer, an address below the new `enc_wr` is below the old one or is it. -/
theorem lt_toNat_succ {w : BitVec 5} {a : Nat} (hw : w.toNat < 18) (ha : a < (w + 1#5).toNat) : a < w.toNat + 1 := by
  bv_omega

/-- The same push on both: the same registers, and the same byte where one is written. -/
theorem packPush_agree {k : Sym} {e f f' : EncState} {m : Memory}
    (hm : ∀ a, a ≠ 0 → a < e.wr.toNat → m.read? a = e.buf.read? a)
    (h : packPush k e = .ok f) (h' : packPush k (e.setBuf m) = .ok f') :
    f' = f.setBuf f'.buf ∧ ∀ a, a ≠ 0 → a < f.wr.toNat → f'.buf.read? a = f.buf.read? a := by
  by_cases hfew : e.nbits.toNat < 3
  · rw [packPush_kept k hfew] at h
    rw [packPush_kept k (e := e.setBuf m) hfew] at h'
    cases h
    cases h'
    exact ⟨rfl, hm⟩
  · rcases packPush_cases k e with ⟨hlt, _⟩ | ⟨hmany, hwr, _⟩ | ⟨_, _, herror⟩
    · omega
    · rw [packPush_stored k hmany (by omega)] at h
      rw [packPush_stored k (e := e.setBuf m) hmany (by rw [EncState.setBuf_wr]; omega)] at h'
      cases h
      cases h'
      refine ⟨rfl, fun a hpos ha => ?_⟩
      have hlt : a < e.wr.toNat + 1 := lt_toNat_succ hwr ha
      exact read?_write_agree _ (hm a hpos) hlt
    · rw [herror] at h
      cases h

/-- The same flush on both. -/
theorem packFlush_agree {e f f' : EncState} {m : Memory}
    (hm : ∀ a, a ≠ 0 → a < e.wr.toNat → m.read? a = e.buf.read? a)
    (h : packFlush e = .ok f) (h' : packFlush (e.setBuf m) = .ok f') :
    f' = f.setBuf f'.buf ∧ ∀ a, a ≠ 0 → a < f.wr.toNat → f'.buf.read? a = f.buf.read? a := by
  rcases packFlush_cases e with ⟨hempty, hflush⟩ | ⟨hpending, hwr, hflush⟩ | ⟨_, _, herror⟩
  · rcases packFlush_cases (e.setBuf m) with ⟨_, hflush'⟩ | ⟨hpending', _⟩ | ⟨hpending', _⟩
    · rw [hflush] at h
      rw [hflush'] at h'
      cases h
      cases h'
      exact ⟨rfl, hm⟩
    · simp [hempty] at hpending'
    · simp [hempty] at hpending'
  · rcases packFlush_cases (e.setBuf m) with ⟨hempty', _⟩ | ⟨_, _, hflush'⟩ | ⟨_, hstop, _⟩
    · rw [EncState.setBuf_nbits] at hempty'
      simp [hempty'] at hpending
    · rw [hflush] at h
      rw [hflush'] at h'
      cases h
      cases h'
      refine ⟨rfl, fun a hpos ha => ?_⟩
      have hlt : a < e.wr.toNat + 1 := lt_toNat_succ hwr ha
      exact read?_write_agree _ (hm a hpos) hlt
    · rw [EncState.setBuf_wr] at hstop
      omega
  · rw [herror] at h
    cases h

/-- The same character on both. -/
theorem encAfter_char_agree {c : Byte} {e f f' : EncState} {m : Memory} (hcollect : e.phase = .collect)
    (hm : ∀ a, a ≠ 0 → a < e.wr.toNat → m.read? a = e.buf.read? a)
    (hf : encAfter (.encChar c) e = .ok f) (hf' : encAfter (.encChar c) (e.setBuf m) = .ok f') :
    SameTransaction f f' := by
  rcases encAfter_char_cases hf with ⟨hclosed, _⟩ | ⟨_, hlimit, rfl⟩ | ⟨_, hlimit, hmiss, rfl⟩ |
    ⟨_, hlimit, k, g, hhit, hpush, rfl⟩
  · exact absurd hcollect hclosed
  · rw [encAfter_char_at_limit (e := e.setBuf m) c hcollect hlimit] at hf'
    cases hf'
    exact ⟨rfl, nofun, nofun⟩
  · rw [encAfter_char_of_miss (e := e.setBuf m) hcollect hlimit hmiss] at hf'
    cases hf'
    exact ⟨rfl, fun _ => hm, fun hdone => by simp [hcollect] at hdone⟩
  · rw [encAfter_char_of_hit (e := e.setBuf m) hcollect hlimit hhit] at hf'
    obtain ⟨g', hpush', rfl⟩ := except_map_ok hf'
    obtain ⟨hregisters, hstored⟩ := packPush_agree hm hpush hpush'
    have hphase : g.phase = .collect := (packPush_frame hpush).1.trans hcollect
    exact ⟨by rw [hregisters]; rfl, fun _ => hstored, fun hdone => by simp [hphase] at hdone⟩

/-- The same `ENC.END` on both: every address of the payload is written by now. -/
theorem encAfter_end_agree {e f f' : EncState} {m : Memory} (hcollect : e.phase = .collect)
    (hm : ∀ a, a ≠ 0 → a < e.wr.toNat → m.read? a = e.buf.read? a)
    (hf : encAfter .encEnd e = .ok f) (hf' : encAfter .encEnd (e.setBuf m) = .ok f') : SameTransaction f f' := by
  rcases encAfter_end_cases hf with ⟨hclosed, _⟩ | ⟨_, g, hflush, rfl⟩
  · exact absurd hcollect hclosed
  rcases encAfter_end_cases hf' with ⟨hclosed, _⟩ | ⟨_, g', hflush', rfl⟩
  · exact absurd hcollect hclosed
  obtain ⟨hregisters, hstored⟩ := packFlush_agree hm hflush hflush'
  refine ⟨by rw [hregisters]; rfl, nofun, fun _ a ha => ?_⟩
  by_cases hzero : a = 0
  · subst hzero
    exact (Memory.read?_write_same _ _ _).trans (Memory.read?_write_same _ _ _).symm
  · refine (Memory.read?_write_other _ _ hzero).trans ?_
    exact (hstored a hzero ha).trans (Memory.read?_write_other _ _ hzero).symm

/-- Every ENC command, taken on both, leaves the two the same again. -/
theorem SameTransaction.encAfter {e e' f f' : EncState} (h : SameTransaction e e') (i : Instr)
    (hf : encAfter i e = .ok f) (hf' : encAfter i e' = .ok f') : SameTransaction f f' := by
  obtain ⟨m, rfl⟩ : ∃ m, e' = e.setBuf m := ⟨_, h.registers⟩
  by_cases hstart : i = .encStart
  · subst hstart
    cases hf
    cases hf'
    exact .cleared _ _
  by_cases hcollect : e.phase = .collect
  · cases i with
    | encStart => exact absurd rfl hstart
    | encChar c => exact encAfter_char_agree hcollect (h.stored hcollect) hf hf'
    | encEnd => exact encAfter_end_agree hcollect (h.stored hcollect) hf hf'
    | _ =>
      cases hf
      cases hf'
      exact h
  · rw [encAfter_of_not_collect hcollect hstart] at hf
    rw [encAfter_of_not_collect (e := e.setBuf m) hcollect hstart] at hf'
    cases hf
    cases hf'
    exact h

theorem SameTransaction.encStep {e e' f f' : EncState} (h : SameTransaction e e') (p : InPorts)
    (hf : encStep p e = .ok f) (hf' : encStep p e' = .ok f') : SameTransaction f f' := by
  unfold Machine.encStep at hf hf'
  split at hf
  next hrst =>
    rw [if_pos hrst] at hf'
    cases hf
    cases hf'
    exact .cleared _ _
  next hrst =>
    rw [if_neg hrst] at hf'
    exact h.encAfter _ hf hf'

theorem SameTransaction.encRun {e e' f f' : EncState} (h : SameTransaction e e') {ps : List InPorts}
    (hf : encRun ps e = .ok f) (hf' : encRun ps e' = .ok f') : SameTransaction f f' := by
  induction ps generalizing e e' with
  | nil => cases hf; cases hf'; exact h
  | cons p ps ih =>
    obtain ⟨g, hg, hrun⟩ := encRun_cons_inv hf
    obtain ⟨g', hg', hrun'⟩ := encRun_cons_inv hf'
    exact ih (h.encStep p hg hg') hrun hrun'

/-- The read port shows no difference at any address. -/
theorem SameTransaction.encRead {e e' : EncState} (h : SameTransaction e e') (a : BitVec 5) :
    encRead e a = encRead e' a := by
  obtain ⟨m, rfl⟩ : ∃ m, e' = e.setBuf m := ⟨_, h.registers⟩
  by_cases hread : e.phase = .done ∧ a < e.len
  · have hbyte : m.read? a.toNat = e.buf.read? a.toNat := h.payload hread.1 _ hread.2
    rw [Machine.encRead, Machine.encRead, if_pos hread, if_pos (by exact hread), memRead, memRead, EncState.setBuf_buf,
      hbyte]
  · rw [Machine.encRead, Machine.encRead, if_neg hread, if_neg (by exact hread)]

/-! ## The sample that begins a transaction -/

theorem encStep_start {p : InPorts} (h : p.rst = true ∨ p.encCmd = 0b01#2) (e : EncState) :
    encStep p e = .ok (EncState.cleared e.buf) := by
  unfold encStep
  split
  · rfl
  next hrst => rw [encCommandAt_eq_encStart_iff.2 (h.resolve_left hrst)]; rfl

theorem decStep_start {p : InPorts} (h : p.rst = true ∨ p.decCmd = 0b01#2) (d : DecState) :
    decStep p d = DecState.cleared := by
  unfold decStep
  split
  · rfl
  next hrst =>
    have hcmd : decCommandAt p = .decStart := by simp [decCommandAt, decodeCommand, h.resolve_left hrst]
    rw [hcmd]
    rfl

end Sys2Proof.Machine
end

section
/-!
PROOFS. The two channels beside each other (spec/10_state.md R20, R21) and one transaction after another (R48).
-/
namespace Sys2Proof.Proofs
open Sys2Proof Sys2Proof.Machine

/-- Settles O32: a run of the machine is a run of each channel on the ports that channel samples. -/
theorem neitherChannelReadsTheOther : Obligations.NeitherChannelReadsTheOther := by
  intro s₁ s₂ t₁ t₂ ps₁ ps₂ h₁ h₂
  obtain ⟨henc₁, hdec₁⟩ := steps_drive_inv h₁
  obtain ⟨henc₂, hdec₂⟩ := steps_drive_inv h₂
  refine ⟨fun henc hports => ?_, fun hdec hports => ?_⟩
  · rw [henc, encRun_congr hports, henc₂] at henc₁
    exact (Except.ok.inj henc₁).symm
  · rw [hdec₁, hdec₂, hdec, decRun_congr hports]

/-- Settles O47: the first sample clears the channel's registers in both runs; on the ENC side the buffers still differ,
but the same commands keep them alike where the transaction's bytes lie. -/
theorem transactionsAreIsolated : Obligations.TransactionsAreIsolated := by
  intro s₁ s₂ t₁ t₂ p ps h₁ h₂
  obtain ⟨henc₁, hdec₁⟩ := steps_drive_inv (ps := p :: ps) h₁
  obtain ⟨henc₂, hdec₂⟩ := steps_drive_inv (ps := p :: ps) h₂
  obtain ⟨u, hstep, _⟩ := steps_succ_inv h₁
  obtain ⟨hencStep, hdecStep⟩ := step_drive_inv hstep
  refine ⟨fun hstart => ?_, fun hstart => ?_⟩
  · rw [encStep_start hstart] at hencStep
    rw [encRun_cons_of_ok ps (encStep_start hstart _)] at henc₁ henc₂
    have hsame : SameTransaction t₁.enc t₂.enc := (SameTransaction.cleared _ _).encRun henc₁ henc₂
    have hregisters := hsame.registers
    refine ⟨⟨u, hstep, (Except.ok.inj hencStep).symm⟩, ?_, ?_, ?_, ?_, hsame.encRead⟩ <;> rw [hregisters] <;> rfl
  · rw [decStep_start hstart] at hdecStep
    rw [decRun_cons, decStep_start hstart] at hdec₁ hdec₂
    exact ⟨⟨u, hstep, hdecStep⟩, hdec₁.trans hdec₂.symm⟩

end Sys2Proof.Proofs
end

section
/-!
SUPPORT. An ENC transaction (spec/44_encode_channel.md R217): the channel after the characters given so far, and the
finished payload on the read port.
-/
namespace Sys2Proof.Machine
open Sys2Proof

/-! ## The characters given -/

theorem encCharsOf_append (ps qs : List InPorts) : encCharsOf (ps ++ qs) = encCharsOf ps ++ encCharsOf qs :=
  List.filterMap_append

theorem encCharsOf_singleton_of_char {p : InPorts} (h : p.encCmd = 0b10#2) : encCharsOf [p] = [p.encChar] := by
  simp [encCharsOf, h]

theorem encCharsOf_singleton_of_not_char {p : InPorts} (h : p.encCmd ≠ 0b10#2) : encCharsOf [p] = [] := by
  simp [encCharsOf, h]

theorem validSyms_append (cs cs' : List Byte) : validSyms (cs ++ cs') = validSyms cs ++ validSyms cs' :=
  List.filterMap_append

/-- The channel after the characters `cs` of a transaction: open while they are at most 27, in FAULT from the 28th
on. -/
inductive EncTaken (e : EncState) (cs : List Byte) : Prop where
  | within (hlen : cs.length ≤ 27) (hopen : EncOpen e (validSyms cs) cs.length)
  | beyond (hlen : 28 ≤ cs.length) (hphase : e.phase = .fault) (hzero : e.len = 0#5)

theorem EncTaken.cleared (m : Memory) : EncTaken (EncState.cleared m) [] := .within (by simp) (.cleared m)

theorem EncTaken.char {e : EncState} {cs : List Byte} (h : EncTaken e cs) (c : Byte) :
    ∃ e', encAfter (.encChar c) e = .ok e' ∧ EncTaken e' (cs ++ [c]) := by
  have hlen' : (cs ++ [c]).length = cs.length + 1 := List.length_append
  rcases h with ⟨hlen, hopen⟩ | ⟨hlen, hphase, hzero⟩
  · by_cases hlimit : cs.length < 27
    · obtain ⟨e', hafter, hopen'⟩ := hopen.char c hlimit
      exact ⟨e', hafter, .within (by omega) (by rwa [validSyms_append, hlen'])⟩
    · rw [show cs.length = 27 by omega] at hopen
      exact ⟨_, hopen.char_at_limit c, .beyond (by omega) rfl rfl⟩
  · exact ⟨e, encAfter_of_not_collect (by simp [hphase]) (by simp), .beyond (by omega) hphase hzero⟩

/-- One sample of an open transaction: a character, or nothing. -/
theorem EncTaken.sample {e : EncState} {cs : List Byte} (h : EncTaken e cs) {p : InPorts} (hp : EncOpenSample p) :
    ∃ e', encStep p e = .ok e' ∧ EncTaken e' (cs ++ encCharsOf [p]) := by
  obtain ⟨hrst, hcmd⟩ := hp
  rw [encStep_of_not_rst hrst]
  rcases hcmd with hnop | hchar
  · have hcommand : encCommandAt p = .encNop := by simp [encCommandAt, decodeCommand, hnop]
    rw [hcommand, encCharsOf_singleton_of_not_char (by simp [hnop]), List.append_nil]
    exact ⟨e, rfl, h⟩
  · have hcommand : encCommandAt p = .encChar p.encChar := by simp [encCommandAt, decodeCommand, hchar]
    rw [hcommand, encCharsOf_singleton_of_char hchar]
    exact h.char p.encChar

theorem EncTaken.samples {e : EncState} {cs : List Byte} (h : EncTaken e cs) {ps : List InPorts}
    (hps : ∀ p ∈ ps, EncOpenSample p) : ∃ e', encRun ps e = .ok e' ∧ EncTaken e' (cs ++ encCharsOf ps) := by
  induction ps generalizing e cs with
  | nil => exact ⟨e, rfl, by simpa [encCharsOf] using h⟩
  | cons p ps ih =>
    obtain ⟨f, hf, hnext⟩ := h.sample (hps p List.mem_cons_self)
    obtain ⟨e', he', hall⟩ := ih hnext fun q hq => hps q (List.mem_cons_of_mem p hq)
    refine ⟨e', by rw [encRun_cons_of_ok ps hf, he'], ?_⟩
    rwa [List.append_assoc, ← encCharsOf_append, List.singleton_append] at hall

/-- The sample that ends a transaction. -/
theorem encStep_end {p : InPorts} (hrst : p.rst = false) (hcmd : p.encCmd = 0b11#2) (e : EncState) :
    encStep p e = encAfter .encEnd e := by
  have hcommand : encCommandAt p = .encEnd := by simp [encCommandAt, decodeCommand, hcmd]
  rw [encStep_of_not_rst hrst, hcommand]

/-- A whole transaction of at most 27 characters: `ENC.END` leaves the finished payload of the valid ones. -/
theorem EncTaken.finish {e : EncState} {cs : List Byte} (h : EncTaken e cs) (hlen : cs.length ≤ 27) {p : InPorts}
    (hrst : p.rst = false) (hcmd : p.encCmd = 0b11#2) :
    ∃ e', encStep p e = .ok e' ∧ e'.phase = .done ∧ EncDoneInv e' (validSyms cs) := by
  rcases h with ⟨_, hopen⟩ | ⟨hbeyond, _⟩
  · obtain ⟨hafter, hdone⟩ := hopen.finish
    exact ⟨_, (encStep_end hrst hcmd e).trans hafter, rfl, hdone⟩
  · omega

theorem EncTaken.fault {e : EncState} {cs : List Byte} (h : EncTaken e cs) (hlen : 28 ≤ cs.length) :
    e.phase = .fault ∧ e.len = 0#5 := by
  rcases h with ⟨hwithin, _⟩ | ⟨_, hphase, hzero⟩
  · omega
  · exact ⟨hphase, hzero⟩

/-- A whole transaction of more: `ENC.END` finds the channel in FAULT and leaves it so. -/
theorem EncTaken.finish_beyond {e : EncState} {cs : List Byte} (h : EncTaken e cs) (hlen : 28 ≤ cs.length) {p : InPorts}
    (hrst : p.rst = false) (hcmd : p.encCmd = 0b11#2) :
    encStep p e = .ok e ∧ e.phase = .fault ∧ e.len = 0#5 := by
  obtain ⟨hphase, hzero⟩ := h.fault hlen
  exact ⟨(encStep_end hrst hcmd e).trans (encAfter_of_not_collect (by simp [hphase]) (by simp)), hphase, hzero⟩

/-! ## The finished payload -/

/-- The payload of the code points `ks`: their count and their packed bytes (R14). -/
def payloadOf (ks : List Sym) : List Byte := BitVec.ofNat 8 ks.length :: pack5 ks

theorem encodeRef_eq_payloadOf {cs : List Byte} (h : cs.length ≤ 27) : encodeRef cs = .ok (payloadOf (validSyms cs)) :=
  encodeRef_ok h

theorem payloadOf_length (ks : List Sym) : (payloadOf ks).length = 1 + dataBytes ks.length := by
  rw [payloadOf, List.length_cons, pack5_length, Nat.add_comm]

section
variable {e : EncState} {ks : List Sym}

theorem EncDoneInv.toNat_len (h : EncDoneInv e ks) : e.len.toNat = (payloadOf ks).length := by
  rw [h.len_eq, h.count, payloadOf_length]

/-- The buffer holds the payload from address 0 on. -/
theorem EncDoneInv.read? (h : EncDoneInv e ks) {a : Nat} (ha : a < e.len.toNat) :
    e.buf.read? a = (payloadOf ks)[a]? := by
  cases a with
  | zero => rw [h.lengthByte, ← BitVec.ofNat_toNat, h.count]; rfl
  | succ j =>
    rw [Nat.add_comm, h.payload j (by omega), Nat.add_comm]
    rfl

theorem EncDoneInv.encRead_of_some (h : EncDoneInv e ks) (hphase : e.phase = .done) {a : BitVec 5} {b : Byte}
    (hb : (payloadOf ks)[a.toNat]? = some b) : encRead e a = (true, b) := by
  obtain ⟨ha, -⟩ := List.getElem?_eq_some_iff.1 hb
  rw [← h.toNat_len] at ha
  exact encRead_of_written hphase ha ((h.read? ha).trans hb)

theorem EncDoneInv.encRead_of_none (h : EncDoneInv e ks) {a : BitVec 5} (hb : (payloadOf ks)[a.toNat]? = none) :
    encRead e a = (false, 0x00#8) := by
  have ha := List.getElem?_eq_none_iff.1 hb
  rw [← h.toNat_len] at ha
  exact encRead_of_not_lt (Nat.not_lt.2 ha)

/-- Reading all of it gives the payload (R107). -/
theorem EncDoneInv.encReadAll (h : EncDoneInv e ks) (hphase : e.phase = .done) : encReadAll e = payloadOf ks := by
  refine List.ext_getElem (by simp [Machine.encReadAll, h.toNat_len]) fun a ha hb => ?_
  have hlt : a < 32 := by
    have hlen := e.len.isLt
    rw [h.toNat_len] at hlen
    omega
  have hread : encRead e (BitVec.ofNat 5 a) = (true, (payloadOf ks)[a]) := by
    refine h.encRead_of_some hphase ?_
    rw [BitVec.toNat_ofNat, Nat.mod_eq_of_lt hlt, List.getElem?_eq_getElem hb]
  simp [Machine.encReadAll, hread]

end

/-! ## Runs of the machine -/

theorem steps_drive_all {ps : List InPorts} {s : State} {e : EncState} (h : encRun ps s.enc = .ok e) :
    steps ps.length (drive ps s) = .next (drive [] ((s.setEnc e).setDec (decRun ps s.dec))) := by
  simpa using steps_drive_of_ok [] h

theorem steps_drive_concat {ps : List InPorts} {p : InPorts} {s : State} {e : EncState}
    (h : encRun (ps ++ [p]) s.enc = .ok e) :
    steps (ps.length + 1) (drive (ps ++ [p]) s) =
      .next (drive [] ((s.setEnc e).setDec (decRun (ps ++ [p]) s.dec))) := by
  simpa using steps_drive_all h

theorem encRun_concat_of_ok {ps : List InPorts} {p : InPorts} {e f g : EncState} (h : encRun ps e = .ok f)
    (hp : encStep p f = .ok g) : encRun (ps ++ [p]) e = .ok g := by
  rw [encRun_append_of_ok [p] h, encRun_cons_of_ok [] hp, encRun_nil]

end Sys2Proof.Machine
end

section
/-!
PROOFS. What an ENC transaction computes (spec/44_encode_channel.md).
-/
namespace Sys2Proof.Proofs
open Sys2Proof Sys2Proof.Machine

theorem encErr_of_done {e : EncState} (hphase : e.phase = .done) : encErr e = false := by
  simp only [encErr, hphase]

/-- What is seen of the channel once `InputTooLong` has been raised. -/
theorem fault_outputs {e : EncState} (hphase : e.phase = .fault) (hzero : e.len = 0#5) :
    e.phase = .fault ∧ encErr e = true ∧ e.len = 0#5 ∧ ∀ a, encRead e a = (false, 0x00#8) :=
  ⟨hphase, encErr_of_fault hphase, hzero, encRead_of_not_done (by simp [hphase])⟩

/-- Settles O44: after each sample the channel is as its characters so far say, whatever the DEC side takes; what
`ENC.END` finds in COLLECT is a packer that has taken the valid ones. -/
theorem encTransactionComputesEncode : Obligations.EncTransactionComputesEncode := by
  intro s ps last hcleared hps hrst hcmd
  have hstart : EncTaken s.enc [] := by
    rw [hcleared]
    exact .cleared _
  refine ⟨fun hlen => ?_, fun hlen => ⟨if_pos hlen, ?_, fun qs rs hsplit hqlen => ?_⟩⟩
  · obtain ⟨f, hrun, htaken⟩ := hstart.samples hps
    obtain ⟨e, hlast, hphase, hdone⟩ := htaken.finish hlen hrst hcmd
    rw [List.nil_append] at hdone
    refine ⟨_, _, steps_drive_concat (encRun_concat_of_ok hrun hlast), encodeRef_eq_payloadOf hlen, hphase,
      encErr_of_done hphase, hdone.count, hdone.toNat_len, fun a => ?_, hdone.encReadAll hphase, ?_, ?_⟩
    · cases hread : (payloadOf (validSyms (encCharsOf ps)))[a.toNat]? with
      | some b => exact hdone.encRead_of_some hphase hread
      | none => exact hdone.encRead_of_none hread
    · exact hdone.toNat_len.symm.trans hdone.len_eq
    · have hvalid := validSyms_length_le (encCharsOf ps)
      rw [payloadOf_length, dataBytes]
      omega
  · obtain ⟨f, hrun, htaken⟩ := hstart.samples hps
    obtain ⟨hlast, hphase, hzero⟩ := htaken.finish_beyond hlen hrst hcmd
    exact ⟨_, steps_drive_concat (encRun_concat_of_ok hrun hlast), fault_outputs hphase hzero⟩
  · subst hsplit
    obtain ⟨f, hrun, htaken⟩ := hstart.samples (ps := qs) fun p hp => hps p (List.mem_append_left rs hp)
    obtain ⟨hphase, hzero⟩ := htaken.fault hqlen
    rw [List.append_assoc]
    exact ⟨_, steps_drive_of_ok (rs ++ [last]) hrun, fault_outputs hphase hzero⟩

end Sys2Proof.Proofs
end

section
/-!
SUPPORT. A DEC transaction (spec/45_decode_channel.md R246): the channel after the bytes given so far, and the
characters its lanes have shown.
-/
namespace Sys2Proof.Machine
open Sys2Proof

/-! ## The characters of windows and of the lanes -/

theorem windowChars_append (ws ws' : List Sym) : windowChars (ws ++ ws') = windowChars ws ++ windowChars ws' := by
  rw [windowChars, List.filter_append, List.filterMap_append]
  rfl

theorem windowChars_length_le (ws : List Sym) : (windowChars ws).length ≤ ws.length :=
  (List.length_filterMap_le _ _).trans (List.length_filter_le _ _)

/-- One lane shows the character of its window, where that names one (R134, R236). -/
theorem lane_eq_windowChars (w : Sym) :
    (if (mapS2C w).1 then [(mapS2C w).2] else []) = windowChars [w] := by
  have table : ∀ w : Sym, (if (mapS2C w).1 then [(mapS2C w).2] else []) = windowChars [w] := by decide
  exact table w

/-- The lanes after a load show the characters of its windows. -/
theorem laneChars_writeLanes {ws : List Sym} (h : ws.length ≤ 2) (d : DecState) :
    laneChars (writeLanes (ws.map mapS2C) d) = windowChars ws := by
  match ws, h with
  | [], _ => rfl
  | [w], _ =>
    rw [List.map_singleton, writeLanes_one, laneChars_setLanes, lane_eq_windowChars]
    exact List.append_nil _
  | [w, w'], _ =>
    rw [List.map_cons, List.map_singleton, writeLanes_two, laneChars_setLanes, lane_eq_windowChars,
      lane_eq_windowChars, ← windowChars_append, List.singleton_append]

theorem unpackLoad_windows_length (b : Byte) (d : DecState) : (unpackLoad b d).2.length ≤ 2 := by
  rcases unpackLoad_cases b d with ⟨_, h⟩ | ⟨_, h⟩ <;> simp [h]

theorem laneChars_clear (d : DecState) : laneChars (d.setLanes false 0x00#8 false 0x00#8) = [] := rfl

/-! ## Decode, as its list of bytes grows -/

/-- A length byte of 0 needs no case of its own: it asks for no window (R16). -/
theorem decodeRef_cons (n : Byte) (data : List Byte) : decodeRef (n :: data) = windowChars (unpack5 data n.toNat) := by
  rw [decodeRef]
  split
  next h0 => simp [h0, unpack5_eq]
  next => rfl

theorem decodeRef_length_le (n : Byte) (data : List Byte) : (decodeRef (n :: data)).length ≤ n.toNat := by
  rw [decodeRef_cons]
  refine (windowChars_length_le _).trans ?_
  simp [unpack5_eq]

/-- Decode gives back what Encode took, where that is of the alphabet (R17). -/
theorem decodeRef_encodeRef_of_alphabet {cs payload : List Byte} (halpha : ∀ c ∈ cs, c ∈ alphabet)
    (h : encodeRef cs = .ok payload) : decodeRef payload = cs := by
  have hlen : cs.length ≤ 27 := by
    by_contra hlong
    rw [encodeRef, if_pos (Nat.lt_of_not_le hlong)] at h
    cases h
  rw [decodeRef_encodeRef hlen h, List.filter_eq_self]
  simpa using halpha

/-! ## The bytes given -/

theorem decBytesOf_append (ps qs : List InPorts) : decBytesOf (ps ++ qs) = decBytesOf ps ++ decBytesOf qs :=
  List.filterMap_append

theorem decBytesOf_singleton_of_byte {p : InPorts} (h : p.decCmd = 0b10#2) : decBytesOf [p] = [p.decByte] := by
  simp [decBytesOf, h]

theorem decBytesOf_singleton_of_not_byte {p : InPorts} (h : p.decCmd ≠ 0b10#2) : decBytesOf [p] = [] := by
  simp [decBytesOf, h]

/-- The channel after the bytes of a transaction: nothing before the length byte, then an unpacker of that count. -/
inductive DecTaken (d : DecState) : List Byte → Prop where
  | opened (hphase : d.phase = .len) (hn : d.n = 0#8) (hi : d.i = 0#8) (hnbits : d.nbits = 0#3) (hacc : d.acc = 0#4) :
      DecTaken d []
  | counted (data : List Byte) (hphase : d.phase = .data) (hdata : Unpacked d data) : DecTaken d (d.n :: data)

theorem DecTaken.cleared : DecTaken DecState.cleared [] := .opened rfl rfl rfl rfl rfl

/-- A lane write is no part of it. -/
theorem DecTaken.writeLanes {d : DecState} {bs : List Byte} (h : DecTaken d bs) (ls : List (Bool × Byte)) :
    DecTaken (writeLanes ls d) bs := by
  obtain ⟨hphase', hn', hi', hacc', hnbits'⟩ := writeLanes_frame ls d
  cases h with
  | opened hphase hn hi hnbits hacc =>
    exact .opened (hphase'.trans hphase) (hn'.trans hn) (hi'.trans hi) (hnbits'.trans hnbits) (hacc'.trans hacc)
  | counted data hphase hdata =>
    rw [← hn']
    exact .counted data (hphase'.trans hphase) (hdata.writeLanes ls)

/-- `DEC.BYTE` takes the byte, and the lanes show what it adds to the decoded characters (R234, R236). -/
theorem DecTaken.byte {d : DecState} {bs : List Byte} (h : DecTaken d bs) (b : Byte) :
    DecTaken (decAfter (.decByte b) d) (bs ++ [b]) ∧
      decodeRef (bs ++ [b]) = decodeRef bs ++ laneChars (decAfter (.decByte b) d) := by
  cases h with
  | opened hphase hn hi hnbits hacc =>
    have hopen : DecTaken (lenExtract b d) [b] := .counted [] rfl (unpacked_lenExtract b hnbits hacc)
    rw [decAfter_byte_of_len b hphase]
    refine ⟨hopen.writeLanes [], ?_⟩
    rw [List.nil_append, decodeRef_cons, unpack5_eq]
    simp [decodeRef]
  | counted data hphase hdata =>
    by_cases howed : d.i < d.n
    · obtain ⟨hnext, hwindows⟩ := hdata.load howed b
      have htaken : DecTaken (unpackLoad b d).1 ((unpackLoad b d).1.n :: (data ++ [b])) :=
        .counted _ ((unpackLoad_phase b d).trans hphase) hnext
      rw [unpackLoad_n] at htaken
      rw [decAfter_byte_of_owed b hphase howed, List.cons_append]
      refine ⟨htaken.writeLanes _, ?_⟩
      rw [decodeRef_cons, decodeRef_cons, hwindows, windowChars_append,
        laneChars_writeLanes (unpackLoad_windows_length b d)]
    · obtain ⟨hnext, hwindows⟩ := hdata.skip howed b
      rw [decAfter_byte_ignored b (.inl ⟨hphase, howed⟩), List.cons_append]
      refine ⟨(DecTaken.counted _ hphase hnext).writeLanes [], ?_⟩
      rw [decodeRef_cons, decodeRef_cons, hwindows, laneChars_clear, List.append_nil]

/-- One sample of an open transaction: a byte, or nothing. -/
theorem DecTaken.sample {d : DecState} {bs : List Byte} (h : DecTaken d bs) {p : InPorts} (hp : DecOpenSample p) :
    DecTaken (decStep p d) (bs ++ decBytesOf [p]) ∧
      decodeRef (bs ++ decBytesOf [p]) = decodeRef bs ++ laneChars (decStep p d) := by
  obtain ⟨hrst, hcmd⟩ := hp
  rw [decStep_of_not_rst hrst]
  rcases hcmd with hnop | hbyte
  · have hcommand : decCommandAt p = .decNop := by simp [decCommandAt, decodeCommand, hnop]
    rw [hcommand, decBytesOf_singleton_of_not_byte (by simp [hnop]), List.append_nil]
    exact ⟨h.writeLanes [], (List.append_nil _).symm⟩
  · have hcommand : decCommandAt p = .decByte p.decByte := by simp [decCommandAt, decodeCommand, hbyte]
    rw [hcommand, decBytesOf_singleton_of_byte hbyte]
    exact h.byte p.decByte

theorem DecTaken.samples {d : DecState} {bs : List Byte} (h : DecTaken d bs) {ps : List InPorts}
    (hps : ∀ p ∈ ps, DecOpenSample p) :
    DecTaken (decRun ps d) (bs ++ decBytesOf ps) ∧
      decodeRef (bs ++ decBytesOf ps) = decodeRef bs ++ decOutput ps d := by
  induction ps generalizing d bs with
  | nil => exact ⟨by simpa [decBytesOf] using h, by simp [decBytesOf, decOutput]⟩
  | cons p ps ih =>
    obtain ⟨hnext, hshown⟩ := h.sample (hps p List.mem_cons_self)
    obtain ⟨hall, hshown'⟩ := ih hnext fun q hq => hps q (List.mem_cons_of_mem p hq)
    have hbytes : bs ++ decBytesOf (p :: ps) = bs ++ decBytesOf [p] ++ decBytesOf ps := by
      rw [List.append_assoc, ← decBytesOf_append, List.singleton_append]
    rw [hbytes]
    exact ⟨hall, by rw [hshown', hshown, decOutput, List.append_assoc]⟩

/-- The sample that ends a transaction closes it, keeps the count and the position, and shows nothing (R240). -/
theorem DecTaken.finish {d : DecState} {bs : List Byte} (h : DecTaken d bs) {p : InPorts} (hrst : p.rst = false)
    (hcmd : p.decCmd = 0b11#2) :
    (decStep p d).phase = .done ∧ (decStep p d).n = d.n ∧ (decStep p d).i = d.i ∧ laneChars (decStep p d) = [] := by
  have hcommand : decCommandAt p = .decEnd := by simp [decCommandAt, decodeCommand, hcmd]
  have hopen : d.phase ≠ .done := by
    cases h with
    | opened hphase => simp [hphase]
    | counted _ hphase => simp [hphase]
  rw [decStep_of_not_rst hrst, hcommand, decAfter_end_of_not_done hopen]
  exact ⟨rfl, rfl, rfl, rfl⟩

/-- The output of a whole transaction from the cleared channel is Decode of its bytes (R246). -/
theorem decOutput_transaction {ps : List InPorts} {last : InPorts} (hps : ∀ p ∈ ps, DecOpenSample p)
    (hrst : last.rst = false) (hcmd : last.decCmd = 0b11#2) :
    decOutput (ps ++ [last]) DecState.cleared = decodeRef (decBytesOf ps) := by
  obtain ⟨htaken, hshown⟩ := DecTaken.cleared.samples hps
  obtain ⟨_, _, _, hempty⟩ := htaken.finish hrst hcmd
  rw [decOutput_append, decOutput, decOutput, hempty]
  simpa [decodeRef] using hshown.symm

theorem laneOutput_drive_all {ps : List InPorts} {s : State} {e : EncState} (h : encRun ps s.enc = .ok e) :
    laneOutput ps.length (drive ps s) = decOutput ps s.dec := by
  simpa using laneOutput_drive_of_ok [] h

/-! ## The expansions of the pseudo-instructions (spec/30_encoding.md R107) -/

theorem encOpenSample_chars (cs : List Byte) : ∀ p ∈ cs.map (portsOf ∘ Instr.encChar), EncOpenSample p := by
  intro p hp
  obtain ⟨c, _, rfl⟩ := List.mem_map.1 hp
  exact ⟨rfl, .inr rfl⟩

theorem encCharsOf_chars (cs : List Byte) : encCharsOf (cs.map (portsOf ∘ Instr.encChar)) = cs := by
  induction cs with
  | nil => rfl
  | cons c cs ih => exact congrArg (c :: ·) ih

theorem decOpenSample_bytes (bs : List Byte) : ∀ p ∈ bs.map (portsOf ∘ Instr.decByte), DecOpenSample p := by
  intro p hp
  obtain ⟨b, _, rfl⟩ := List.mem_map.1 hp
  exact ⟨rfl, .inr rfl⟩

theorem decBytesOf_bytes (bs : List Byte) : decBytesOf (bs.map (portsOf ∘ Instr.decByte)) = bs := by
  induction bs with
  | nil => rfl
  | cons b bs ih => exact congrArg (b :: ·) ih

theorem encodeCommands_ports (cs : List Byte) : (encodeCommands cs).map portsOf =
    portsOf .encStart :: (cs.map (portsOf ∘ Instr.encChar) ++ [portsOf .encEnd]) := by
  simp [encodeCommands]

theorem decodeCommands_ports (bs : List Byte) : (decodeCommands bs).map portsOf =
    portsOf .decStart :: (bs.map (portsOf ∘ Instr.decByte) ++ [portsOf .decEnd]) := by
  simp [decodeCommands]

/-- `ENCODE` from any ENC channel: the payload of its characters is in the buffer. -/
theorem encRun_encodeCommands {cs : List Byte} (hlen : cs.length ≤ 27) (e : EncState) :
    ∃ e', encRun ((encodeCommands cs).map portsOf) e = .ok e' ∧ e'.phase = .done ∧ EncDoneInv e' (validSyms cs) := by
  obtain ⟨f, hrun, htaken⟩ := (EncTaken.cleared e.buf).samples (encOpenSample_chars cs)
  rw [encCharsOf_chars, List.nil_append] at htaken
  obtain ⟨e', hlast, hdone⟩ := htaken.finish hlen (p := portsOf .encEnd) rfl rfl
  rw [encodeCommands_ports, encRun_cons_of_ok _ (encStep_start (.inr rfl) e)]
  exact ⟨e', encRun_concat_of_ok hrun hlast, hdone⟩

/-- `DECODE` from any DEC channel: the lanes show Decode of its bytes. -/
theorem decOutput_decodeCommands (bs : List Byte) (d : DecState) :
    decOutput ((decodeCommands bs).map portsOf) d = decodeRef bs := by
  rw [decodeCommands_ports, decOutput, decStep_start (.inr rfl),
    decOutput_transaction (decOpenSample_bytes bs) rfl rfl, decBytesOf_bytes]
  rfl

end Sys2Proof.Machine
end

section
/-!
PROOFS. What a DEC transaction computes (spec/45_decode_channel.md), and the loop-back of both channels.
-/
namespace Sys2Proof.Proofs
open Sys2Proof Sys2Proof.Machine

/-- Settles O45: after each sample the channel is as its bytes so far say, and its lanes have shown what these decode
to; the ENC traffic does not stop the run, because its channel has the invariant. -/
theorem decTransactionComputesDecode : Obligations.DecTransactionComputesDecode := by
  intro s ps last hcleared henc hps hrst hcmd
  obtain ⟨e, hrun, _⟩ := henc.encRun (ps ++ [last])
  obtain ⟨htaken, _⟩ := DecTaken.cleared.samples hps
  rw [List.nil_append] at htaken
  obtain ⟨hphase, hn, hi, _⟩ := htaken.finish hrst hcmd
  have hout : laneOutput (ps.length + 1) (drive (ps ++ [last]) s) = decodeRef (decBytesOf ps) := by
    rw [← decOutput_transaction hps hrst hcmd, ← hcleared]
    simpa using laneOutput_drive_all hrun
  have hdec : decRun (ps ++ [last]) s.dec = decStep last (decRun ps DecState.cleared) := by
    rw [decRun_append, hcleared, decRun_cons, decRun_nil]
  refine ⟨_, steps_drive_concat hrun, hout, ?_, fun cs halpha hcs => ?_, ?_⟩
  · rw [drive_dec, State.setDec_dec, hdec, hphase]
  · rw [hout, decodeRef_encodeRef_of_alphabet halpha hcs]
  · rw [drive_dec, State.setDec_dec, hdec, hn, hi]
    generalize decRun ps DecState.cleared = d at htaken ⊢
    generalize decBytesOf ps = bs at htaken ⊢
    cases htaken with
    | opened _ hn hi => exact ⟨hn, hi⟩
    | counted data _ hdata => exact ⟨rfl, hdata.i_eq, decodeRef_length_le d.n data⟩

/-- Settles O46: `ENCODE` leaves `Encode` of the characters on the read port, and `DECODE` of that gives them back. -/
theorem hardwareRoundTrip : Obligations.HardwareRoundTrip := by
  intro s cs hinv halpha hlen
  obtain ⟨e, hrun, hphase, hdone⟩ := encRun_encodeCommands hlen s.enc
  have hencLen : ((encodeCommands cs).map portsOf).length = cs.length + 2 := by simp [encodeCommands]
  have hdecLen : ((decodeCommands (encReadAll e)).map portsOf).length = (encReadAll e).length + 2 := by
    simp [decodeCommands]
  obtain ⟨e', hinv', henc⟩ := hinv.enc.encRun ((encodeCommands cs).map portsOf)
  rw [hrun] at hinv'
  cases hinv'
  obtain ⟨f, hrun', _⟩ := henc.encRun ((decodeCommands (encReadAll e)).map portsOf)
  refine ⟨_, by rw [← hencLen]; exact steps_drive_all hrun, hphase, ?_⟩
  rw [drive_enc, State.setDec_enc, State.setEnc_enc, ← hdecLen, laneOutput_drive_all hrun', decOutput_decodeCommands,
    hdone.encReadAll hphase]
  exact decodeRef_encodeRef_of_alphabet halpha (encodeRef_eq_payloadOf hlen)

end Sys2Proof.Proofs
end

section
/-!
SUPPORT. Command words (spec/30_encoding.md R100, R101): the fields of a word and of the model's two-byte form
(notes/assumptions/1.md), and the command they give.
-/
namespace Sys2Proof.Machine
open Sys2Proof

/-- A command's code and data, on its own channel, give the command back (R101). -/
theorem decodeCommand_codeOf_dataOf (i : Instr) : decodeCommand (channelOf i) (codeOf i) (dataOf i) = i := by
  cases i <;> rfl

/-- The command that a code gives has that code (R100). -/
theorem codeOf_decodeCommand (ch : Channel) (cmd : BitVec 2) (data : Byte) :
    codeOf (decodeCommand ch cmd data) = cmd := by
  have four : cmd = 0b00#2 ∨ cmd = 0b01#2 ∨ cmd = 0b10#2 ∨ cmd = 0b11#2 := by revert cmd; decide
  rcases four with rfl | rfl | rfl | rfl <;> cases ch <;> rfl

/-- `CHAR` and `BYTE` carry the data field (R102). -/
theorem dataOf_decodeCommand (ch : Channel) (data : Byte) : dataOf (decodeCommand ch 0b10#2 data) = data := by
  cases ch <;> rfl

/-- A word is its two fields (R101). -/
theorem wordCmd_append_wordData (w : CmdWord) : (wordCmd w ++ wordData w : CmdWord) = w := by
  apply BitVec.eq_of_getLsbD_eq
  intro i hi
  rw [show (wordCmd w ++ wordData w : CmdWord).getLsbD i =
      if i < 8 then (wordData w).getLsbD i else (wordCmd w).getLsbD (i - 8) from BitVec.getLsbD_append]
  split
  next hlow => simp [wordData, hlow]
  next hhigh =>
    have htwo : i - 8 < 2 := by omega
    simp [wordCmd, htwo, show 8 + (i - 8) = i by omega]

/-- The four match values are different (R101). -/
theorem match_inj : ∀ {c c' : BitVec 2}, c.setWidth 10 <<< 8 = c'.setWidth 10 <<< 8 → c = c' := by decide

/-- The masked word is the match value of its code. -/
theorem word_and_mask (w : CmdWord) : w &&& 0x300#10 = (wordCmd w).setWidth 10 <<< 8 := by
  obtain ⟨hmask, _, _⟩ := Laws.word_parts (wordCmd w) (wordData w)
  rwa [wordCmd_append_wordData] at hmask

/-! ## The two-byte form -/

/-- The second byte of the two-byte form: the code, and the channel tag above it. -/
def tagByte (ch : Channel) (cmd : BitVec 2) : Byte := (if ch = .dec then 4#8 else 0#8) ||| cmd.setWidth 8

theorem tagByte_fields : ∀ (ch : Channel) (cmd : BitVec 2), (tagByte ch cmd).extractLsb' 3 5 = 0#5 ∧
    (if (tagByte ch cmd).getLsbD 2 then Channel.dec else .enc) = ch ∧ (tagByte ch cmd).extractLsb' 0 2 = cmd := by
  intro ch
  cases ch <;> decide

theorem decode_tagByte (ch : Channel) (cmd : BitVec 2) (data : Byte) (rest : List Byte) :
    decode (data :: tagByte ch cmd :: rest) = .ok (decodeCommand ch cmd data, rest) := by
  obtain ⟨hzero, hchannel, hcmd⟩ := tagByte_fields ch cmd
  rw [decode, if_pos hzero, hchannel, hcmd, decodeWord_append]

/-- The bits above the tag are those from 8 on. -/
theorem extractLsb'_eq_zero_iff (hi : Byte) : hi.extractLsb' 3 5 = 0#5 ↔ hi.toNat < 8 := by
  have hlt : hi.toNat < 256 := hi.isLt
  have hvalue : (hi.extractLsb' 3 5).toNat = hi.toNat / 8 := by
    rw [BitVec.extractLsb'_toNat, Nat.shiftRight_eq_div_pow]
    omega
  rw [← BitVec.toNat_inj, hvalue, BitVec.toNat_ofNat]
  omega

theorem decode_of_lt {hi : Byte} (h : hi.toNat < 8) (lo : Byte) (rest : List Byte) :
    decode (lo :: hi :: rest) =
      .ok (decodeWord (if hi.getLsbD 2 then .dec else .enc) (hi.extractLsb' 0 2 ++ lo), rest) :=
  if_pos ((extractLsb'_eq_zero_iff hi).2 h)

theorem decode_of_le {hi : Byte} (h : 8 ≤ hi.toNat) (lo : Byte) (rest : List Byte) :
    decode (lo :: hi :: rest) = .error .notACommandWord :=
  if_neg fun hzero => absurd ((extractLsb'_eq_zero_iff hi).1 hzero) (Nat.not_lt.2 h)

/-! ## Table words -/

/-- The tag of a table word, read from its second byte and from the number. -/
theorem getLsbD_tag {v : Nat} (h : v < 2048) :
    (if (BitVec.ofNat 8 (v / 256)).getLsbD 2 then Channel.dec else .enc) =
      if v / 1024 = 1 then .dec else .enc := by
  have hbit : (BitVec.ofNat 8 (v / 256)).getLsbD 2 = decide (v / 1024 = 1) := by
    rw [BitVec.getLsbD_ofNat, Nat.testBit_eq_decide_div_mod_eq]
    simp only [show (2 < 8) from by decide, decide_true, Bool.true_and]
    exact decide_eq_decide.2 (by omega)
  rw [hbit]
  by_cases htag : v / 1024 = 1 <;> simp [htag]

/-- The 10-bit word of a table word, put together from its two bytes and read from the number. -/
theorem twoBytes_eq_word (v : Nat) :
    ((BitVec.ofNat 8 (v / 256)).extractLsb' 0 2 ++ BitVec.ofNat 8 v : CmdWord) = BitVec.ofNat 10 v := by
  have hlow : v % 256 < 2 ^ 8 := Nat.mod_lt _ (by decide)
  apply BitVec.eq_of_toNat_eq
  rw [show ((BitVec.ofNat 8 (v / 256)).extractLsb' 0 2 ++ BitVec.ofNat 8 v : CmdWord).toNat =
      ((BitVec.ofNat 8 (v / 256)).extractLsb' 0 2).toNat <<< 8 ||| (BitVec.ofNat 8 v).toNat from
      BitVec.toNat_append _ _, BitVec.extractLsb'_toNat, BitVec.toNat_ofNat, BitVec.toNat_ofNat, BitVec.toNat_ofNat,
    Nat.shiftRight_zero, ← Nat.shiftLeft_add_eq_or_of_lt hlow, Nat.shiftLeft_eq]
  omega

/-- A table word that decodes is a channel and a 10-bit word, and decodes to their command. -/
theorem tableWordParts_of_decodeTableWord {nbits w : Nat} {i : Instr} (h : decodeTableWord nbits w = some i) :
    ∃ ch cw, tableWordParts nbits w = some (ch, cw) ∧ decodeWord ch cw = i := by
  rw [decodeTableWord] at h
  rw [tableWordParts]
  generalize w % 2 ^ nbits = v at h ⊢
  by_cases hbytes : v < 65536
  · have hhi : (BitVec.ofNat 8 (v / 256)).toNat = v / 256 := by rw [BitVec.toNat_ofNat]; omega
    rw [tableWordBytes, if_pos hbytes] at h
    by_cases hword : v < 2048
    · simp only [decode_of_lt (hi := BitVec.ofNat 8 (v / 256)) (by omega), getLsbD_tag hword, twoBytes_eq_word,
        Option.some.injEq] at h
      exact ⟨_, _, if_pos hword, h⟩
    · simp [decode_of_le (hi := BitVec.ofNat 8 (v / 256)) (by omega)] at h
  · simp [tableWordBytes, hbytes] at h

/-! ## A word on the ports -/

theorem withFetchWord_eq {nbits w : Nat} {ch : Channel} {cw : CmdWord} (h : tableWordParts nbits w = some (ch, cw))
    (s : State) : s.withFetchWord nbits w = s.setHost (wordOnPorts ch cw s.ports) s.script := by
  rw [State.withFetchWord, h]

/-- A step that takes a word of the ENC channel. -/
theorem step_wordOnPorts_enc {s : State} {w : CmdWord} {e : EncState}
    (h : encAfter (decodeWord .enc w) s.enc = .ok e) :
    ∃ u, step (s.setHost (wordOnPorts .enc w s.ports) s.script) = .next u ∧ u.enc = e ∧
      u.dec = s.dec.setLanes false 0x00#8 false 0x00#8 :=
  ⟨_, step_of_encAfter_ok (s := s.setHost (wordOnPorts .enc w s.ports) s.script) rfl h, rfl, rfl⟩

/-- A step that takes a word of the DEC channel. -/
theorem step_wordOnPorts_dec (s : State) (w : CmdWord) :
    ∃ u, step (s.setHost (wordOnPorts .dec w s.ports) s.script) = .next u ∧ u.enc = s.enc ∧
      u.dec = decAfter (decodeWord .dec w) s.dec :=
  ⟨_, step_of_encAfter_ok (s := s.setHost (wordOnPorts .dec w s.ports) s.script) (e := s.enc) rfl rfl, rfl, rfl⟩

end Sys2Proof.Machine
end

section
/-!
PROOFS. The encoding of commands (spec/30_encoding.md): words, the two-byte form and the host's door.
-/
namespace Sys2Proof.Proofs
open Sys2Proof Sys2Proof.Machine

/-- Settles O1: in both forms the fields taken apart are the command's code and data on its own channel. -/
theorem decodeOfEncodedCommandIsItself : Obligations.DecodeOfEncodedCommandIsItself := by
  intro i rest
  constructor
  · rw [encodeWord, decodeWord_append, decodeCommand_codeOf_dataOf]
  · calc decode (encode i ++ rest) = decode (dataOf i :: tagByte (channelOf i) (codeOf i) :: rest) := rfl
      _ = .ok (i, rest) := by rw [decode_tagByte, decodeCommand_codeOf_dataOf]

/-- Settles O2: the masked word is the match value of its code, which is the decoded command's. -/
theorem everyWordMatchesExactlyItsOwnRow : Obligations.EveryWordMatchesExactlyItsOwnRow := by
  intro ch w
  have hcode : codeOf (decodeWord ch w) = wordCmd w := codeOf_decodeCommand _ _ _
  refine ⟨channelOf_decodeCommand _ _ _, fun i _ => ?_, fun hdata => ?_⟩
  · rw [word_and_mask, rowMatch, hcode]
    exact ⟨fun h => (match_inj h).symm, fun h => by rw [h]⟩
  · rw [hcode] at hdata
    rw [decodeWord, hdata, dataOf_decodeCommand]
    rfl

/-- Settles O4: eight words, each evaluated. -/
theorem sampleWordsDecodeAsWrittenOut : Obligations.SampleWordsDecodeAsWrittenOut := by
  unfold Obligations.SampleWordsDecodeAsWrittenOut
  decide

/-- Settles O5: the refused second bytes are those with a bit above the tag. -/
theorem decoderRefusesExactlyWhatIsNoCommandWord : Obligations.DecoderRefusesExactlyWhatIsNoCommandWord :=
  ⟨fun lo _ rest => ⟨fun h => decode_of_le h lo rest, fun h => ⟨_, decode_of_lt h lo rest⟩⟩, fun _ => rfl, rfl⟩

/-- Settles O30: a word that decodes is put on its channel's ports, and the other channel's ports get `NOP`. -/
theorem placedWordIsTheNextCommand : Obligations.PlacedWordIsTheNextCommand := by
  intro s t nbits w i hdecode hexec
  obtain ⟨ch, cw, hparts, rfl⟩ := tableWordParts_of_decodeTableWord hdecode
  rw [withFetchWord_eq hparts]
  refine ⟨rfl, rfl, rfl, ?_⟩
  have hchannel : channelOf (decodeWord ch cw) = ch := channelOf_decodeCommand _ _ _
  rw [hchannel]
  cases ch with
  | enc =>
    rw [exec_enc_eq s hchannel] at hexec
    obtain ⟨e, hafter, rfl⟩ := encOutcome_next.1 hexec
    obtain ⟨u, hstep, henc, hdec⟩ := step_wordOnPorts_enc hafter
    exact ⟨u, hstep, fun _ => ⟨henc, hdec⟩, nofun⟩
  | dec =>
    rw [exec_dec_next s hchannel] at hexec
    cases hexec
    obtain ⟨u, hstep, henc, hdec⟩ := step_wordOnPorts_dec s cw
    exact ⟨u, hstep, nofun, fun _ => ⟨henc, hdec⟩⟩

end Sys2Proof.Proofs
end

section
/-!
SUPPORT. When a command stops (notes/assumptions/5.md), and what a step does as an ENC command, a DEC command and the
host's next sample (spec/10_state.md R21).
-/
namespace Sys2Proof.Machine
open Sys2Proof

/-! ## Stops -/

theorem packPush_error_iff {k : Sym} {e : EncState} {f : Fault} : packPush k e = .error f ↔
    3 ≤ e.nbits.toNat ∧ 18 ≤ e.wr.toNat ∧ f = .bufferAddress e.wr.toNat := by
  rcases packPush_cases k e with ⟨hfew, h⟩ | ⟨_, hwr, h⟩ | ⟨hmany, hwr, h⟩ <;> rw [h]
  · exact ⟨nofun, fun h' => absurd h'.1 (Nat.not_le.2 hfew)⟩
  · exact ⟨nofun, fun h' => absurd h'.2.1 (Nat.not_le.2 hwr)⟩
  · simp [hmany, hwr, eq_comm]

theorem packFlush_error_iff {e : EncState} {f : Fault} : packFlush e = .error f ↔
    e.nbits ≠ 0#3 ∧ 18 ≤ e.wr.toNat ∧ f = .bufferAddress e.wr.toNat := by
  rcases packFlush_cases e with ⟨hempty, h⟩ | ⟨_, hwr, h⟩ | ⟨hpending, hwr, h⟩ <;> rw [h]
  · exact ⟨nofun, fun h' => absurd hempty h'.1⟩
  · exact ⟨nofun, fun h' => absurd h'.2.1 (Nat.not_le.2 hwr)⟩
  · have hpending : e.nbits ≠ 0#3 := by bv_omega
    simp [hpending, hwr, eq_comm]

/-- `map` fails exactly where its argument does. -/
theorem except_map_error_iff {α β ε : Type} {f : α → β} {r : Except ε α} {x : ε} :
    r.map f = .error x ↔ r = .error x := by
  cases r <;> simp [Except.map]

/-- `ENC.CHAR` stops exactly where a valid character below the limit makes a byte past the buffer. -/
theorem encAfter_char_error_iff {c : Byte} {e : EncState} {f : Fault} : encAfter (.encChar c) e = .error f ↔
    e.phase = .collect ∧ 18 ≤ e.wr.toNat ∧ f = .bufferAddress e.wr.toNat ∧
      e.raw ≠ 27#5 ∧ c ∈ alphabet ∧ 3 ≤ e.nbits.toNat := by
  by_cases hphase : e.phase = .collect
  · by_cases hlimit : e.raw = 27#5
    · simp [encAfter_char_at_limit c hphase hlimit, hlimit]
    · rcases cp_cases c with ⟨hout, hmiss⟩ | ⟨hmem, k, hhit, _⟩
      · simp [encAfter_char_of_miss hphase hlimit hmiss, hout]
      · rw [encAfter_char_of_hit hphase hlimit hhit, except_map_error_iff, packPush_error_iff]
        exact ⟨fun ⟨hmany, hwr, hf⟩ => ⟨hphase, hwr, hf, hlimit, hmem, hmany⟩,
          fun ⟨_, hwr, hf, _, _, hmany⟩ => ⟨hmany, hwr, hf⟩⟩
  · simp [encAfter_of_not_collect (i := .encChar c) hphase (by simp), hphase]

/-- `ENC.END` stops exactly where the pending bits would go past the buffer: the length byte has a place. -/
theorem encAfter_end_error_iff {e : EncState} {f : Fault} : encAfter .encEnd e = .error f ↔
    e.phase = .collect ∧ 18 ≤ e.wr.toNat ∧ f = .bufferAddress e.wr.toNat ∧ e.nbits ≠ 0#3 := by
  by_cases hphase : e.phase = .collect
  · have hflush : encAfter .encEnd e = .error f ↔ packFlush e = .error f := by
      simp only [encAfter, hphase, except_map_error_iff]
      cases packFlush e <;> simp [Except.bind, lenPrepend_eq]
    rw [hflush, packFlush_error_iff]
    exact ⟨fun ⟨hpending, hwr, hf⟩ => ⟨hphase, hwr, hf, hpending⟩, fun ⟨_, hwr, hf, hpending⟩ => ⟨hpending, hwr, hf⟩⟩
  · simp [encAfter_of_not_collect (i := .encEnd) hphase (by simp), hphase]

theorem encOutcome_fault {s : State} {r : Except Fault EncState} {f : Fault} :
    encOutcome s r = .fault f ↔ r = .error f := by
  cases r <;> simp [encOutcome]

theorem encOutcome_ne_refused (s : State) (r : Except Fault EncState) (x : Refusal) : encOutcome s r ≠ .refused x := by
  cases r <;> simp [encOutcome]

theorem step_of_encAfter_error {s : State} {f : Fault} (hrst : s.ports.rst = false)
    (hafter : encAfter (encCommandAt s.ports) s.enc = .error f) : step s = .fault f := by
  rw [step_eq, hrst, hafter]
  rfl

/-! ## The buffer -/

/-- Outside COLLECT, and by every command but `ENC.CHAR` and `ENC.END`, no byte is written. -/
theorem encAfter_buf_of_not_collect {i : Instr} {e e' : EncState} (hphase : e.phase ≠ .collect)
    (h : encAfter i e = .ok e') : e'.buf = e.buf := by
  by_cases hstart : i = .encStart
  · subst hstart
    cases h
    rfl
  · rw [encAfter_of_not_collect hphase hstart] at h
    cases h
    rfl

/-- Where a byte can be written: at `enc_wr`, and by `ENC.END` at address 0 (spec/20_memory.md R63). -/
theorem encAfter_read? {i : Instr} {e e' : EncState} (h : encAfter i e = .ok e') {a : Nat} (hwr : a ≠ e.wr.toNat)
    (hzero : a = 0 → i ≠ .encEnd) : e'.buf.read? a = e.buf.read? a := by
  cases i with
  | encStart => cases h; rfl
  | encChar c =>
    rcases encAfter_char_cases h with ⟨_, rfl⟩ | ⟨_, _, rfl⟩ | ⟨_, _, _, rfl⟩ | ⟨_, _, k, f, _, hpush, rfl⟩
    · rfl
    · rfl
    · rfl
    · obtain ⟨_, _, _, _, hread, _⟩ := packPush_frame hpush
      exact hread a hwr
  | encEnd =>
    rcases encAfter_end_cases h with ⟨_, rfl⟩ | ⟨_, f, hflush, rfl⟩
    · rfl
    · obtain ⟨_, _, _, _, _, _, hread, _⟩ := packFlush_frame hflush
      exact (Memory.read?_write_other _ _ fun ha => hzero ha rfl).trans (hread a hwr)
  | _ => cases h; rfl

/-- What a command of either channel makes of the ENC channel: its own effect, or nothing. -/
theorem exec_next_enc {i : Instr} {s t : State} (h : exec i s = .next t) : encAfter i s.enc = .ok t.enc := by
  cases hchannel : channelOf i with
  | enc =>
    rw [exec_enc_eq s hchannel] at h
    obtain ⟨e, hafter, rfl⟩ := encOutcome_next.1 h
    exact hafter
  | dec =>
    rw [exec_dec_next s hchannel] at h
    cases h
    cases i with
    | decNop => rfl
    | decStart => rfl
    | decByte b => rfl
    | decEnd => rfl
    | _ => cases hchannel

/-! ## A step on both channels -/

/-- A step is one sample for each channel. -/
theorem step_inv {s t : State} (h : step s = .next t) :
    encStep s.ports s.enc = .ok t.enc ∧ t.dec = decStep s.ports s.dec :=
  step_drive_inv (p := s.ports) (ps := s.script) (s := s) h

/-! ## Phases -/

/-- `ENC.CHAR` in COLLECT goes to FAULT at the length limit and stays otherwise (spec/44_encode_channel.md R215). -/
theorem encAfter_char_phase {c : Byte} {e e' : EncState} (hphase : e.phase = .collect)
    (h : encAfter (.encChar c) e = .ok e') : e'.phase = if e.raw = 27#5 then .fault else .collect := by
  rcases encAfter_char_cases h with ⟨hclosed, _⟩ | ⟨_, hlimit, rfl⟩ | ⟨_, hlimit, _, rfl⟩ |
    ⟨_, hlimit, k, f, _, hpush, rfl⟩
  · exact absurd hphase hclosed
  · rw [if_pos hlimit]
    rfl
  · rw [if_neg hlimit]
    exact hphase
  · rw [if_neg hlimit]
    exact (packPush_frame hpush).1.trans hphase

theorem encAfter_end_phase {e e' : EncState} (hphase : e.phase = .collect) (h : encAfter .encEnd e = .ok e') :
    e'.phase = .done := by
  rcases encAfter_end_cases h with ⟨hclosed, _⟩ | ⟨_, f, _, rfl⟩
  · exact absurd hphase hclosed
  · rfl

theorem writeLanes_phase (ls : List (Bool × Byte)) (d : DecState) : (writeLanes ls d).phase = d.phase :=
  (writeLanes_frame ls d).1

theorem decAfter_byte_phase (b : Byte) (d : DecState) :
    (decAfter (.decByte b) d).phase = if d.phase = .len then .data else d.phase := by
  cases hphase : d.phase with
  | len => rw [decAfter_byte_of_len b hphase]; rfl
  | data =>
    by_cases howed : d.i < d.n
    · rw [decAfter_byte_of_owed b hphase howed, writeLanes_phase, unpackLoad_phase, hphase]
      rfl
    · rw [decAfter_byte_ignored b (.inl ⟨hphase, howed⟩)]
      exact hphase
  | done =>
    rw [decAfter_byte_ignored b (.inr hphase)]
    exact hphase

theorem decAfter_end_phase (d : DecState) : (decAfter .decEnd d).phase = .done := by
  by_cases hphase : d.phase = .done
  · rw [decAfter_end_of_done hphase]
    exact hphase
  · rw [decAfter_end_of_not_done hphase]
    rfl

end Sys2Proof.Machine
end

section
/-!
PROOFS. The step, its control flow and its stops (spec/10_state.md, spec/20_memory.md, spec/44_encode_channel.md,
spec/45_decode_channel.md, spec/60_exceptions.md).
-/
namespace Sys2Proof.Proofs
open Sys2Proof Sys2Proof.Machine

/-- Settles O19: of the ENC commands only the two that write the buffer can stop, and a DEC command never does. -/
theorem commandsStopExactlyOutsideTheBuffer : Obligations.CommandsStopExactlyOutsideTheBuffer := by
  refine ⟨fun i s f => ?_, fun i s r => ?_⟩
  · cases hchannel : channelOf i with
    | enc =>
      rw [exec_enc_eq s hchannel, encOutcome_fault]
      cases i with
      | encChar c => simp [encAfter_char_error_iff]
      | encEnd => simp [encAfter_end_error_iff]
      | encNop => simp [encAfter]
      | encStart => simp [encAfter]
      | _ => cases hchannel
    | dec =>
      rw [exec_dec_next s hchannel]
      cases i with
      | decNop => simp
      | decStart => simp
      | decByte b => simp
      | decEnd => simp
      | _ => cases hchannel
  · cases hchannel : channelOf i with
    | enc => rw [exec_enc_eq s hchannel]; exact encOutcome_ne_refused _ _ _
    | dec => rw [exec_dec_next s hchannel]; nofun

/-- Settles O29: each command is its effect on its own channel, which is what a step runs. -/
theorem stepRunsTheDecodedCommands : Obligations.StepRunsTheDecodedCommands := by
  intro s hrst
  refine ⟨fun t u henc hdec => ?_, fun f henc => ?_⟩
  · rw [exec_enc_eq s (channelOf_decodeCommand _ _ _)] at henc
    obtain ⟨e, hafter, rfl⟩ := encOutcome_next.1 henc
    rw [exec_dec_next _ (channelOf_decodeCommand _ _ _)] at hdec
    cases hdec
    exact step_of_encAfter_ok hrst hafter
  · rw [exec_enc_eq s (channelOf_decodeCommand _ _ _)] at henc
    exact step_of_encAfter_error hrst (encOutcome_fault.1 henc)

/-- Settles O31: the DEC command never stops, and each command writes its own channel from that channel alone. -/
theorem channelCommandsCommute : Obligations.ChannelCommandsCommute := by
  intro i j s hi hj
  rw [exec_enc_eq s hi, exec_dec_next s hj]
  simp only [exec_enc_eq (s.setDec _) hi, State.setDec_enc]
  cases encAfter i s.enc with
  | ok e => simp only [encOutcome, exec_dec_next (s.setEnc e) hj, State.setEnc_dec, State.setEnc_setDec]
  | error f => rfl

/-- Settles O33: each command in each phase; outside COLLECT only `ENC.START` moves. -/
theorem encPhaseTransitions : Obligations.EncPhaseTransitions := by
  intro s t hstep
  obtain ⟨henc, -⟩ := step_inv hstep
  cases hrst : s.ports.rst with
  | true =>
    rw [encStep_start (.inl hrst)] at henc
    rw [← Except.ok.inj henc]
    rfl
  | false =>
    rw [encStep_of_not_rst hrst] at henc
    generalize encCommandAt s.ports = i at henc ⊢
    by_cases hstart : i = .encStart
    · subst hstart
      rw [← Except.ok.inj henc]
      rfl
    · cases hphase : s.enc.phase with
      | collect =>
        cases i with
        | encStart => exact absurd rfl hstart
        | encChar c => exact encAfter_char_phase hphase henc
        | encEnd => exact encAfter_end_phase hphase henc
        | _ => rw [← Except.ok.inj henc]; exact hphase
      | done =>
        rw [encAfter_of_not_collect (by simp [hphase]) hstart] at henc
        rw [← Except.ok.inj henc, hphase]
        cases i with
        | encStart => exact absurd rfl hstart
        | _ => rfl
      | fault =>
        rw [encAfter_of_not_collect (by simp [hphase]) hstart] at henc
        rw [← Except.ok.inj henc, hphase]
        cases i with
        | encStart => exact absurd rfl hstart
        | _ => rfl

/-- Settles O34: the length byte and the two commands that set a phase; every other write keeps it. -/
theorem decPhaseTransitions : Obligations.DecPhaseTransitions := by
  intro s t hstep
  obtain ⟨-, hdec⟩ := step_inv hstep
  rw [hdec]
  cases hrst : s.ports.rst with
  | true =>
    rw [decStep_start (.inl hrst)]
    rfl
  | false =>
    rw [decStep_of_not_rst hrst]
    generalize decCommandAt s.ports = i
    cases i with
    | decStart => rfl
    | decByte b => rw [decAfter_byte_phase]; cases s.dec.phase <;> rfl
    | decEnd => exact decAfter_end_phase _
    | _ => exact writeLanes_phase [] s.dec

/-- Settles O36: the table of phases has one entry that leads from another phase to FAULT. -/
theorem inputTooLongHasExactlyOneCause : Obligations.InputTooLongHasExactlyOneCause := by
  intro s t hstep
  have hphase := encPhaseTransitions s t hstep
  cases hrst : s.ports.rst with
  | true => simp [hphase, hrst]
  | false =>
    rcases encCmd_cases s.ports with ⟨hcode, hcmd⟩ | ⟨hcode, hcmd⟩ | ⟨hcode, hcmd⟩ | ⟨hcode, hcmd⟩
    · simp [hphase, hrst, hcmd, hcode]
    · simp [hphase, hrst, hcmd, hcode]
    · cases hold : s.enc.phase with
      | collect => simp [hphase, hrst, hcmd, hcode, hold]
      | done => simp [hphase, hrst, hcmd, hold]
      | fault => simp
    · cases hold : s.enc.phase with
      | collect => simp [hphase, hrst, hcmd, hcode, hold]
      | done => simp [hphase, hrst, hcmd, hold]
      | fault => simp

end Sys2Proof.Proofs
end

section
/-!
SUPPORT. The bits of a packed list at their places (spec/20_memory.md R66), and the part of a payload that Decode reads
(R68, R69).
-/
namespace Sys2Proof.Machine
open Sys2Proof

/-- Joining lists of one length `m`: entry `j` of list `i` is entry `m * i + j`. -/
theorem getElem?_flatMap_of_length_eq {α β : Type} {f : α → List β} {m : Nat} (hf : ∀ x, (f x).length = m) {xs : List α}
    {i j : Nat} {x : α} (hx : xs[i]? = some x) (hj : j < m) : (xs.flatMap f)[m * i + j]? = (f x)[j]? := by
  induction xs generalizing i with
  | nil => simp at hx
  | cons y ys ih =>
    rw [List.flatMap_cons]
    cases i with
    | zero =>
      cases hx
      rw [Nat.mul_zero, Nat.zero_add, List.getElem?_append_left (by rw [hf]; exact hj)]
    | succ i =>
      rw [List.getElem?_append_right (by rw [hf, Nat.mul_succ]; omega), hf,
        show m * (i + 1) + j - m = m * i + j by rw [Nat.mul_succ]; omega, ih hx]

theorem bits5_getElem? (w : Sym) {k : Nat} (hk : k ≤ 4) : (bits5 w)[4 - k]? = some (w.getLsbD k) := by
  have five : k = 0 ∨ k = 1 ∨ k = 2 ∨ k = 3 ∨ k = 4 := by omega
  rcases five with rfl | rfl | rfl | rfl | rfl <;> rfl

theorem bits8_getElem? (b : Byte) {j : Nat} (hj : j < 8) : (bits8 b)[j]? = some (b.getLsbD (7 - j)) := by
  have eight : j = 0 ∨ j = 1 ∨ j = 2 ∨ j = 3 ∨ j = 4 ∨ j = 5 ∨ j = 6 ∨ j = 7 := by omega
  rcases eight with rfl | rfl | rfl | rfl | rfl | rfl | rfl | rfl <;> rfl

/-- Bit `k` of symbol `i` in the stream of the symbols. -/
theorem symStream_getElem? {ks : List Sym} {i k : Nat} {w : Sym} (hw : ks[i]? = some w) (hk : k ≤ 4) :
    (symStream ks)[5 * i + (4 - k)]? = some (w.getLsbD k) := by
  rw [← bits5_getElem? w hk]
  exact getElem?_flatMap_of_length_eq bits5_length hw (by omega)

/-- Bit `p` of a stream of bytes in its byte. -/
theorem byteStream_getElem? {bs : List Byte} {p : Nat} {b : Byte} (hb : bs[p / 8]? = some b) :
    (byteStream bs)[p]? = some (b.getLsbD (7 - p % 8)) := by
  have hj : p % 8 < 8 := Nat.mod_lt _ (by decide)
  rw [← bits8_getElem? b hj]
  have hbit := getElem?_flatMap_of_length_eq bits8_length hb hj
  rwa [Nat.div_add_mod] at hbit

/-- Data that agree on the first `5n` bits have the same `n` windows, or as many as there are (R69). -/
theorem unpack5_congr {data data' : List Byte} {n : Nat}
    (h : (byteStream data).take (5 * n) = (byteStream data').take (5 * n)) : unpack5 data n = unpack5 data' n := by
  have hlen := congrArg List.length h
  rw [List.length_take, List.length_take, byteStream_length, byteStream_length] at hlen
  have hcount : min n (8 * data.length / 5) = min n (8 * data'.length / 5) := by omega
  rw [unpack5_eq, unpack5_eq, hcount]
  refine List.map_congr_left fun i hi => streamWindow_congr h ?_
  have hi := List.mem_range.1 hi
  omega

end Sys2Proof.Machine
end

section
/-!
PROOFS. The alphabet, the bit positions of a payload and what Decode reads of it (spec/00_scope.md, spec/20_memory.md).
-/
namespace Sys2Proof.Proofs
open Sys2Proof Sys2Proof.Machine

/-- The closed form of R92 counts the characters of the alphabet in its order. -/
theorem cp_eq_idxOf (c : Byte) : cp c = if c ∈ alphabet then some (BitVec.ofNat 5 (alphabet.idxOf c)) else none := by
  have table : ∀ c ∈ alphabet, cp c = some (BitVec.ofNat 5 (alphabet.idxOf c)) := by decide
  split
  next hmem => exact table c hmem
  next hout => exact cp_eq_none hout

/-- Settles O6: the alphabet is the 29 glyphs; `cp` and `sym` are the index in it and the look-up. -/
theorem alphabetIndexAndLookupAgree : Obligations.AlphabetIndexAndLookupAgree := by
  refine ⟨by decide, rfl, cp_eq_idxOf, fun k hk => ?_, fun c k => sym_eq_some_iff.2⟩
  have hlt : k < 29#5 := Nat.lt_succ_of_le hk
  obtain ⟨c, hc⟩ := Option.isSome_iff_exists.1 (sym_isSome_iff.2 hlt)
  exact ⟨c, hc, hc, cp_of_sym hc⟩

/-- Settles O52: the stream of the data bytes begins with the symbols' stream, so a bit has one place in both. -/
theorem symbolBitPositions : Obligations.SymbolBitPositions := by
  intro ks i k w hw hk
  obtain ⟨hi, -⟩ := List.getElem?_eq_some_iff.1 hw
  have hp : 5 * i + (4 - k) < (symStream ks).length := by
    rw [symStream_length]
    omega
  have hbyte : (5 * i + (4 - k)) / 8 < (pack5 ks).length := by
    rw [symStream_length] at hp
    rw [pack5_length, dataBytes]
    omega
  have hb := List.getElem?_eq_getElem hbyte
  refine ⟨_, hb, ?_⟩
  have hbit := byteStream_getElem? hb
  rw [byteStream_pack5, List.getElem?_append_left hp, symStream_getElem? hw hk] at hbit
  exact (Option.some.inj hbit).symm

/-- Settles O53: the windows that Decode reads lie in those bits. -/
theorem decodeLooksAtFirstFiveNBitsOnly : Obligations.DecodeLooksAtFirstFiveNBitsOnly := by
  intro n data data' h
  rw [decodeRef_cons, decodeRef_cons, unpack5_congr h]

end Sys2Proof.Proofs
end

section
/-!
PROOFS. The payload buffer and its read port (spec/20_memory.md R60 to R63, R74).
-/
namespace Sys2Proof.Proofs
open Sys2Proof Sys2Proof.Machine

/-- Settles O38: in DONE the invariant says that the buffer holds a payload of `enc_len <= 18` bytes from address 0
on. -/
theorem readPortShowsOnlyWrittenBytes : Obligations.ReadPortShowsOnlyWrittenBytes := by
  intro e a hinv
  refine ⟨fun hphase ha => ?_, fun hclosed => ?_, fun hhigh => ?_⟩
  · obtain ⟨ks, hdone⟩ := hinv.done hphase
    have hlt : a.toNat < e.len.toNat := ha
    have hb := List.getElem?_eq_getElem (hdone.toNat_len ▸ hlt)
    exact ⟨_, (hdone.read? hlt).trans hb, hdone.encRead_of_some hphase hb⟩
  · rcases hclosed with hphase | ha
    · exact encRead_of_not_done hphase a
    · exact encRead_of_not_lt ha
  · by_cases hphase : e.phase = .done
    · obtain ⟨ks, hdone⟩ := hinv.done hphase
      have hwr := hinv.wr_le
      rw [hdone.wr_eq] at hwr
      exact encRead_of_not_lt (Nat.not_lt.2 (hwr.trans hhigh))
    · exact encRead_of_not_done hphase a

/-- In DONE exactly the addresses below `enc_len` are readable. -/
theorem encRead_valid_of_done {e : EncState} (hphase : e.phase = .done) (a : BitVec 5) :
    (encRead e a).1 = decide (a < e.len) := by
  by_cases ha : a < e.len <;> simp [encRead, hphase, ha]

/-- Reset, `ENC.START` and the fault entry leave no phase in which an address is readable. -/
theorem encStep_phase_ne_done {p : InPorts} {e e' : EncState} (h : encStep p e = .ok e')
    (hcause : p.rst = true ∨ p.encCmd = 0b01#2 ∨ (p.encCmd = 0b10#2 ∧ e.phase = .collect ∧ e.raw = 27#5)) :
    e'.phase ≠ .done := by
  by_cases hstart : p.rst = true ∨ p.encCmd = 0b01#2
  · rw [encStep_start hstart] at h
    cases h
    nofun
  · obtain ⟨hrst, hcmd⟩ := not_or.1 hstart
    obtain ⟨hchar, hphase, hlimit⟩ := (hcause.resolve_left hrst).resolve_left hcmd
    have hcommand : encCommandAt p = .encChar p.encChar := by simp [encCommandAt, decodeCommand, hchar]
    rw [encStep_of_not_rst (Bool.eq_false_iff.2 hrst), hcommand, encAfter_char_at_limit _ hphase hlimit] at h
    cases h
    nofun

/-- Settles O37: nothing is readable outside DONE, and DONE begins with the finished payload. -/
theorem payloadIsPublishedAtEnd : Obligations.PayloadIsPublishedAtEnd := by
  intro s t hinv hstep
  obtain ⟨henc, -⟩ := step_inv hstep
  refine ⟨fun hphase => encRead_of_not_done (by simp [hphase]), fun hrst hcmd hphase => ?_, fun hcause => ?_⟩
  · rw [encStep_end hrst hcmd, encAfter_end_of_collect hphase (hinv.wr_le_of_collect hphase)] at henc
    rw [← Except.ok.inj henc]
    exact ⟨encFinished_read?_zero _, hinv.toNat_flushWr hphase, encRead_valid_of_done rfl⟩
  · exact encRead_of_not_done (encStep_phase_ne_done henc hcause)

/-- Settles O43: the addresses a command can write; where the invariant holds and a byte changes, the phase is COLLECT,
which bounds `enc_wr`. -/
theorem bufferWritesGoToTheWritePointerOrZero : Obligations.BufferWritesGoToTheWritePointerOrZero := by
  intro i s t hexec
  have hafter := exec_next_enc hexec
  refine ⟨fun a hzero hwr => encAfter_read? hafter hwr fun h => absurd h hzero,
    fun hend hwr => encAfter_read? hafter hwr.symm fun _ => hend, fun hinv hchanged => ⟨hinv.wr_pos, ?_⟩⟩
  by_cases hphase : s.enc.phase = .collect
  · exact hinv.wr_le_of_collect hphase
  · exact absurd (by rw [encAfter_buf_of_not_collect hphase hafter]) hchanged

end Sys2Proof.Proofs
end

section
/-!
PROOFS. The output ports (spec/10_state.md R22), and the lines of a program (spec/30_encoding.md R106, R107).
-/
namespace Sys2Proof.Proofs
open Sys2Proof Sys2Proof.Machine

theorem encErr_eq_true_iff (e : EncState) : encErr e = true ↔ e.phase = .fault := by
  cases hphase : e.phase <;> simp [encErr, hphase]

/-- Settles O28: the cleared registers, whose phase lets nothing be read, in the order of the ports. -/
theorem outputsAfterReset : Obligations.OutputsAfterReset := by
  refine ⟨fun s henc hdec => ?_, fun s hrst => ?_, rfl, rfl⟩
  · have hphase : s.enc.phase = .collect := by rw [henc]; rfl
    have hread := encRead_of_not_done (e := s.enc) (by simp [hphase])
    refine ⟨hread, ?_⟩
    rw [outputs, hread, hdec, henc]
    rfl
  · obtain ⟨t, hstep, henc, hdec⟩ := exists_step_cleared_of_reset hrst
    exact ⟨t, hstep, by rw [EncCleared, henc]; rfl, hdec⟩

/-- Settles O55: every port is a register or a code of a phase, but for the read port and its two cases. -/
theorem outputsShowTheRegisters : Obligations.OutputsShowTheRegisters := by
  intro s
  refine ⟨?_, encErr_eq_true_iff s.enc, rfl, rfl, rfl, fun hphase ha => ?_, fun hclosed => ?_, ?_, rfl, rfl, rfl, rfl,
    rfl, rfl⟩
  · cases hphase : s.enc.phase <;> simp [outputs, encPhaseCode, hphase]
  · refine ⟨by simp [outputs, encRead, hphase, ha], fun b hb => ?_⟩
    simp [outputs, encRead_of_written hphase ha hb]
  · have hread : encRead s.enc s.ports.encRdAddr = (false, 0x00#8) := by
      rcases hclosed with hphase | ha
      · exact encRead_of_not_done hphase _
      · exact encRead_of_not_lt ha
    simp [outputs, hread]
  · cases hphase : s.dec.phase <;> simp [outputs, decPhaseCode, hphase]

/-- A `START` on a cleared machine leads to that machine with what the host drives next. -/
theorem step_start_of_cleared {s : State} {p : InPorts} (ps : List InPorts) (henc : EncCleared s.enc)
    (hdec : s.dec = DecState.cleared) (hencStep : encStep p s.enc = .ok (EncState.cleared s.enc.buf))
    (hdecStep : decStep p s.dec = DecState.cleared) : step (drive (p :: ps) s) = .next (drive ps s) := by
  rw [step_drive_cons_of_ok ps hencStep, hdecStep, ← hdec, ← henc]
  rfl

/-- Settles O48: over cleared channels neither `START` nor the `NOP` beside it changes a register. -/
theorem leadingStartMayBeOmittedAfterReset : Obligations.LeadingStartMayBeOmittedAfterReset := by
  refine ⟨fun s ps henc hdec => ⟨?_, ?_⟩, fun s p ps hrst => ?_⟩
  · refine step_start_of_cleared ps henc hdec (encStep_start (.inr rfl) _) ?_
    rw [hdec]
    rfl
  · refine step_start_of_cleared ps henc hdec ?_ (decStep_start (.inr rfl) _)
    rw [← henc]
    rfl
  · exact ⟨_, step_drive_cons_of_ok ps (encStep_start (.inl hrst) _), rfl, decStep_start (.inl hrst) _, rfl⟩

/-- The ports of a command of the ENC channel carry it, and `NOP` beside it. -/
theorem commandsAt_portsOf_enc {i : Instr} (h : channelOf i = .enc) :
    encCommandAt (portsOf i) = i ∧ decCommandAt (portsOf i) = .decNop := by
  refine ⟨?_, ?_⟩ <;> simp only [portsOf, h]
  · have hself := decodeCommand_codeOf_dataOf i
    rwa [h] at hself
  · rfl

/-- The ports of a command of the DEC channel. -/
theorem commandsAt_portsOf_dec {i : Instr} (h : channelOf i = .dec) :
    decCommandAt (portsOf i) = i ∧ encCommandAt (portsOf i) = .encNop := by
  refine ⟨?_, ?_⟩ <;> simp only [portsOf, h]
  · have hself := decodeCommand_codeOf_dataOf i
    rwa [h] at hself
  · rfl

theorem portsOf_rst (i : Instr) : (portsOf i).rst = false := by
  unfold portsOf
  split <;> rfl

/-- A line that is a command takes the step of its command (R106). -/
theorem lineSteps_of_command {l : Line} {i : Instr} (h : l.command? = some i) : lineSteps l = [portsOf i] := by
  cases l with
  | reset => cases h
  | encRead a => cases h
  | _ => simp [lineSteps, h]

/-- A well-formed line that is no command is one of the two that are not meant to be (R106). -/
theorem line_of_no_command {l : Line} (hwf : l.wf = true) (h : l.command? = none) :
    l = .reset ∨ ∃ a, l = .encRead a := by
  cases l with
  | reset => exact .inl rfl
  | encRead a => exact .inr ⟨a, rfl⟩
  | encChar c =>
    have hc : c < 256 := of_decide_eq_true hwf
    simp [Line.command?, hc] at h
  | decByte b =>
    have hb : b < 256 := of_decide_eq_true hwf
    simp [Line.command?, hb] at h
  | _ => cases h

/-- Settles O49: a command line takes the step of its command; the other two lines take the steps written down for
them. -/
theorem linesTakeOneStepEach : Obligations.LinesTakeOneStepEach := by
  intro l hwf
  refine ⟨fun i hi => ⟨lineSteps_of_command hi, portsOf_rst i, commandsAt_portsOf_enc, commandsAt_portsOf_dec⟩,
    fun hnone => ?_⟩
  rcases line_of_no_command hwf hnone with rfl | ⟨a, rfl⟩
  · exact .inl ⟨rfl, rfl⟩
  · exact .inr ⟨a, rfl, rfl⟩

end Sys2Proof.Proofs
end
